-- ==== Sys2Proof/Word.lean ====
section
/-! DEFINITION. The word of the block: one byte (spec/00_scope.md R11). -/

namespace Sys2Proof

/-- A byte, an unsigned integer in `[0, 255]`; every datum that crosses a port or sits in storage is
one (R11). -/
abbrev Byte := BitVec 8

end Sys2Proof
end

