-- ==== Sys2Proof/Config.lean ====
section
/-! DEFINITION. The implementation parameters of the block (spec/00_scope.md R9, decision D2): fixed when the
block is built (spec/70_reset_and_hazards.md R233). There is no free value: the spec defines the result of every
operation (R143, R200). -/

namespace Sys2Proof

/-- The nine parameters of R9. An instance of the block is one value of this type; claims quantify over every
legal value (log 1). -/
structure Config where
  /-- `N_RX`, capacity of the receive buffer. -/
  nRx : Nat
  /-- `N_TX`, capacity of the transmit buffer; not necessarily `N_RX` (N4). -/
  nTx : Nat
  /-- `MAX_PAYLOAD`, the largest payload length. -/
  maxPayload : Nat
  /-- `STX`, the start-of-frame byte. -/
  stx : Byte
  /-- `OP_ACK`. -/
  opAck : Byte
  /-- `OP_NACK`. -/
  opNack : Byte
  /-- `BAD_PARAM`, a reason code; carried, never interpreted (R206). -/
  badParam : Byte
  /-- `UNKNOWN_COMMAND`, a reason code; carried, never interpreted (R206). -/
  unknownCommand : Byte
  /-- `CNT_W`, width in bits of each counter. -/
  cntW : Nat
  deriving DecidableEq, Repr

/-- The legal ranges of R9 (a byte-typed parameter has no other bound). -/
abbrev Config.Legal (c : Config) : Prop :=
  1 ≤ c.nRx ∧ 1 ≤ c.nTx ∧ c.maxPayload ≤ 255 ∧ c.opAck ≠ c.opNack ∧
    c.badParam ≠ c.unknownCommand ∧ 1 ≤ c.cntW

/-- `CFG_REF` of R9, "this spec's own choice, used only so that the test vectors ... have concrete bytes".
DESIGN CHOICE (log 1): `State.reset` is built with it. -/
def Config.ref : Config where
  nRx := 64
  nTx := 64
  maxPayload := 16
  stx := 0x02
  opAck := 0x06
  opNack := 0x15
  badParam := 0x01
  unknownCommand := 0x02
  cntW := 32

end Sys2Proof
end

