-- ==== Sys2Proof/Syntax.lean ====
section
/-! DEFINITION. The operations: one constructor per row of spec/opcode_table.json (spec/30_encoding.md R86, R92). -/

namespace Sys2Proof

/-- The operand `q` of the ring-buffer primitives: one of the two instances (R100). -/
inductive Buf where
  | rx
  | tx
  deriving DecidableEq, Repr

/-- The rows of the opcode table, in its order. -/
inductive Instr where
  /-- `RESET`, a signal (R230). -/
  | reset
  /-- `RB_INIT(q)`, internal (R101). -/
  | rbInit (q : Buf)
  /-- `RB_PUT(q, b)`, internal (R102). -/
  | rbPut (q : Buf) (b : Byte)
  /-- `RB_GET(q)`, internal (R103). -/
  | rbGet (q : Buf)
  /-- `RB_COUNT(q)`, internal (R104). -/
  | rbCount (q : Buf)
  /-- `CK_XOR(xs)`, internal function (R121). -/
  | ckXor (xs : List Byte)
  /-- `DEC_STEP`, internal (R143). -/
  | decStep
  /-- `RX_PUSH(b)` (R176). -/
  | rxPush (b : Byte)
  /-- `RX_COUNT` (R178). -/
  | rxCount
  /-- `TX_POP` (R179). -/
  | txPop
  /-- `TX_COUNT` (R181). -/
  | txCount
  /-- `POLL`, composite (R146). -/
  | poll
  /-- `SEND(cmd, payload)`, composite (R160); the `len` operand byte is the payload's length (R88). -/
  | send (cmd : Byte) (payload : List Byte)
  /-- `SEND_ACK`, composite (R166). -/
  | sendAck
  /-- `SEND_NACK(r)`, composite (R167). -/
  | sendNack (r : Byte)
  /-- `STATS` (R182). -/
  | stats
  /-- `RESERVED_OPSELECT`: a command byte that selects no operation (R89). -/
  | reservedOpselect (c : Byte)
  /-- `FRAME`, a wire frame (R70); its `LEN` and `CRC` bytes follow from these fields (R71, R77). -/
  | frame (cmd : Byte) (payload : List Byte)
  /-- `FRAME_ACK`, a wire frame (R81). -/
  | frameAck
  /-- `FRAME_NACK`, a wire frame (R81). -/
  | frameNack (r : Byte)
  deriving DecidableEq, Repr

end Sys2Proof
end

