-- ==== Sys2Proof/Machine/Operands.lean ====
section
/-! DEFINITION. Byte-level assembly of operands and of the wire frame, and the checksum function
(spec/30_encoding.md R71, R77, R81, R88; spec/41_checksum.md R121). -/

namespace Sys2Proof.Machine

/-- `LEN` as a byte: the unsigned payload length, used as it stands (R74, R88). -/
def lenByte (payload : List Byte) : Byte := BitVec.ofNat 8 payload.length

/-- `CK_XOR(xs)` (R121): `acc` starts at 0x00 and takes the bytes in order. -/
def xorFold (xs : List Byte) : Byte := xs.foldl (fun acc x => acc ^^^ x) 0x00

/-- `CRC = CK_XOR([LEN, CMD] ++ payload)` (R77, R121, R161). -/
def frameCrc (cmd : Byte) (payload : List Byte) : Byte := xorFold (lenByte payload :: cmd :: payload)

/-- The wire bytes of a frame, `[STX][LEN][CMD][payload][CRC]` (R70, R71, R162). -/
def wireBytes (cfg : Config) (cmd : Byte) (payload : List Byte) : List Byte :=
  cfg.stx :: lenByte payload :: cmd :: (payload ++ [frameCrc cmd payload])

end Sys2Proof.Machine
end

