-- ==== Sys2Proof/WellFormed.lean ====
section
/-! DEFINITION. Which instructions are in the domain the spec gives them, for a configuration. -/

namespace Sys2Proof

/-- `len(payload) ≤ MAX_PAYLOAD` (R74, R163). -/
def payloadFits (cfg : Config) (payload : List Byte) : Bool :=
  decide (payload.length ≤ cfg.maxPayload)

/-- A command byte that selects no operation: its high nibble is not 0, or its op-select code is 0x9 to 0xF
(R89). -/
def selectsNothing (c : Byte) : Bool :=
  decide (c.toNat / 16 ≠ 0) || decide (9 ≤ c.toNat % 16)

/-- The instruction is one the table's row admits. -/
def wellFormed (cfg : Config) : Instr → Bool
  | .reset => true
  | .rbInit _ => true
  | .rbPut _ _ => true
  | .rbGet _ => true
  | .rbCount _ => true
  | .ckXor _ => true
  | .decStep => true
  | .rxPush _ => true
  | .rxCount => true
  | .txPop => true
  | .txCount => true
  | .poll => true
  | .send _ payload => payloadFits cfg payload
  | .sendAck => true
  | .sendNack r => payloadFits cfg [r]
  | .stats => true
  | .reservedOpselect c => selectsNothing c
  | .frame _ payload => payloadFits cfg payload
  | .frameAck => true
  | .frameNack r => payloadFits cfg [r]

end Sys2Proof
end

