-- ==== Sys2Proof/Decode.lean ====
section
/-! DEFINITION. Decoding of command words (R87 to R89) and of wire frames (R70 to R78), and the encoder of both.
Total on any bytes; every rejection has a name. -/

namespace Sys2Proof

open Sys2Proof.Machine (lenByte xorFold frameCrc wireBytes)

/-- Why bytes are no instruction. -/
inductive Reject where
  /-- No byte at all. -/
  | empty
  /-- The bytes end before the last operand byte, or before the frame's `CRC`. -/
  | truncated
  /-- The first byte of a wire frame is not `STX` (R78). -/
  | notStx
  /-- The `LEN` byte of a wire frame is above `MAX_PAYLOAD` (R79). -/
  | lenAboveMax
  /-- The last byte of a wire frame is not the checksum (R78). -/
  | badCrc
  deriving DecidableEq, Repr

/-- One operand byte after the command byte (R87, R88: used as it stands). -/
def decodeByteOperand (mk : Byte → Instr) : List Byte → Except Reject (Instr × List Byte)
  | [] => .error .truncated
  | b :: rest => .ok (mk b, rest)

/-- The operand bytes of `SEND`: `cmd`, `len`, then `len` payload bytes (R87, R88). -/
def decodeSendOperands : List Byte → Except Reject (Instr × List Byte)
  | cmd :: len :: rest =>
    if len.toNat ≤ rest.length then
      .ok (.send cmd (rest.take len.toNat), rest.drop len.toNat)
    else .error .truncated
  | _ => .error .truncated

/-- The op-select table of R87, on the low nibble of a command byte whose high nibble is 0. -/
def decodeOpSelect (c : Byte) (rest : List Byte) : Except Reject (Instr × List Byte) :=
  match c.toNat % 16 with
  | 0 => decodeByteOperand .rxPush rest
  | 1 => .ok (.rxCount, rest)
  | 2 => .ok (.txPop, rest)
  | 3 => .ok (.txCount, rest)
  | 4 => .ok (.poll, rest)
  | 5 => decodeSendOperands rest
  | 6 => .ok (.sendAck, rest)
  | 7 => decodeByteOperand .sendNack rest
  | 8 => .ok (.stats, rest)
  | _ => .ok (.reservedOpselect c, rest)

/-- The first command word of a byte sequence and the bytes after it (R87). A byte that selects nothing is the
row `RESERVED_OPSELECT` (R89). -/
def decode : List Byte → Except Reject (Instr × List Byte)
  | [] => .error .empty
  | c :: rest =>
    if c.toNat / 16 = 0 then decodeOpSelect c rest else .ok (.reservedOpselect c, rest)

/-- Which row of the table a valid wire frame is: the two reply frames of R81 have rows of their own. -/
def frameRow (cfg : Config) (cmd : Byte) (payload : List Byte) : Instr :=
  match payload with
  | [] => if cmd = cfg.opAck then .frameAck else .frame cmd []
  | [r] => if cmd = cfg.opNack then .frameNack r else .frame cmd [r]
  | p => .frame cmd p

/-- What follows `STX`: `LEN`, `CMD`, payload and `CRC` by position (R71, R72, R78). -/
def decodeAfterStx (cfg : Config) : List Byte → Except Reject (Instr × List Byte)
  | len :: cmd :: rest =>
    if cfg.maxPayload < len.toNat then .error .lenAboveMax
    else
      match rest.drop len.toNat with
      | [] => .error .truncated
      | crc :: tail =>
        if crc = xorFold (len :: cmd :: rest.take len.toNat) then
          .ok (frameRow cfg cmd (rest.take len.toNat), tail)
        else .error .badCrc
  | _ => .error .truncated

/-- The wire frame at the head of a byte sequence and the bytes after it: valid exactly as R78 says. -/
def decodeWire (cfg : Config) : List Byte → Except Reject (Instr × List Byte)
  | [] => .error .empty
  | s :: rest => if s = cfg.stx then decodeAfterStx cfg rest else .error .notStx

/-- The command word of a port operation, from the table of R87; `none` for a row without one (R86, R87: the
internal primitives and the `RESET` signal; the wire-frame rows have wire bytes instead). -/
def encodeCommand : Instr → Option (List Byte)
  | .reset => none
  | .rbInit _ => none
  | .rbPut _ _ => none
  | .rbGet _ => none
  | .rbCount _ => none
  | .ckXor _ => none
  | .decStep => none
  | .rxPush b => some [0x00, b]
  | .rxCount => some [0x01]
  | .txPop => some [0x02]
  | .txCount => some [0x03]
  | .poll => some [0x04]
  | .send cmd payload => some (0x05 :: cmd :: lenByte payload :: payload)
  | .sendAck => some [0x06]
  | .sendNack r => some [0x07, r]
  | .stats => some [0x08]
  | .reservedOpselect c => some [c]
  | .frame _ _ => none
  | .frameAck => none
  | .frameNack _ => none

/-- The wire bytes of a wire-frame row (R71, R81); `none` for every other row. -/
def encodeWire (cfg : Config) : Instr → Option (List Byte)
  | .frame cmd payload => some (wireBytes cfg cmd payload)
  | .frameAck => some (wireBytes cfg cfg.opAck [])
  | .frameNack r => some (wireBytes cfg cfg.opNack [r])
  | .reset => none
  | .rbInit _ => none
  | .rbPut _ _ => none
  | .rbGet _ => none
  | .rbCount _ => none
  | .ckXor _ => none
  | .decStep => none
  | .rxPush _ => none
  | .rxCount => none
  | .txPop => none
  | .txCount => none
  | .poll => none
  | .send _ _ => none
  | .sendAck => none
  | .sendNack _ => none
  | .stats => none
  | .reservedOpselect _ => none

/-- The words of a well-formed instruction: its command word, else its wire bytes; `none` for a row the spec
gives no encoding (R87). -/
def encode (cfg : Config) (i : Instr) : Option (List Byte) :=
  match encodeCommand i with
  | some bs => some bs
  | none => encodeWire cfg i

/-- The row that a wire-frame instruction's own bytes belong to: a `FRAME` of the shape of R81 is that reply
frame. Every other instruction is its own row. -/
def canonicalRow (cfg : Config) : Instr → Instr
  | .frame cmd payload => frameRow cfg cmd payload
  | i => i

/-- How many bytes the longest command word has: command byte, `cmd`, `len` and 255 payload bytes. -/
def longestWord : Nat := 258

/-- The bytes of a table word: bit 0 is the least significant bit of the first byte, later bytes count on. -/
def wordBytes : Nat → Nat → List Byte
  | 0, _ => []
  | n + 1, w => BitVec.ofNat 8 w :: wordBytes n (w / 256)

/-- As many of the zero bytes that follow a table word as its instruction needs. -/
def padWord : Nat → List Byte → List Byte
  | 0, bs => bs
  | n + 1, bs =>
    match decode bs with
    | .error .empty => padWord n (bs ++ [0x00])
    | .error .truncated => padWord n (bs ++ [0x00])
    | _ => bs

/-- The bytes of a table word's instruction, every bit from `nbits` on being 0. -/
def tableBytes (nbits w : Nat) : List Byte := padWord longestWord (wordBytes (nbits / 8) w)

/-- The instruction the decoder reads from a table word. -/
def decodeTableWord (nbits w : Nat) : Option Instr :=
  match decode (tableBytes nbits w) with
  | .ok (i, _) => some i
  | .error _ => none

/-- The bytes of that one instruction (all the word's bytes where the decoder rejects them). -/
def tableWordBytes (nbits w : Nat) : List Byte :=
  match decode (tableBytes nbits w) with
  | .ok (_, rest) => (tableBytes nbits w).take ((tableBytes nbits w).length - rest.length)
  | .error _ => tableBytes nbits w

end Sys2Proof
end

