-- ==== Sys2Proof/Machine/State.lean ====
section
/-! DEFINITION. State: the whole architectural state of the block (spec/10_state.md R20), the progress of the HOST
agent's composite (R42), and the environment of the ports as plain data (log 4, log 6). -/

namespace Sys2Proof.Machine

/-- A storage array as (index, byte) cells with strictly rising indices, none of which holds what an unlisted index
reads as (`unlistedByte` of Ops; log 2). Every byte of the array has a value from power-on (R21, R28, R35). -/
abbrev Memory := List Host.Cell

/-- The three storage arrays of R50. -/
inductive Space where
  | rxMem
  | txMem
  | decBuf
  deriving DecidableEq, Repr

/-- A ring buffer (R23). -/
structure Ring where
  /-- `q.rd`, the read index. -/
  rd : Nat
  /-- `q.wr`, the write index. -/
  wr : Nat
  /-- `q.cnt`, the count. -/
  cnt : Nat
  /-- `q.mem`, the storage array. -/
  mem : Memory
  deriving DecidableEq, Repr

/-- `dec.phase` (R30). -/
inductive Phase where
  | waitStx
  | awaitLen
  | awaitCmd
  | awaitPayload
  | awaitCrc
  deriving DecidableEq, Repr

/-- `DecoderState` (R29 to R35). -/
structure Decoder where
  /-- `dec.phase`. -/
  phase : Phase
  /-- `dec.len`, the `LEN` byte of the frame in progress. -/
  len : Byte
  /-- `dec.cmd`, the `CMD` byte of the frame in progress. -/
  cmd : Byte
  /-- `dec.idx`, payload bytes collected so far. -/
  idx : Nat
  /-- `dec.acc`, the running checksum. -/
  acc : Byte
  /-- `dec.buf`, the scratch payload buffer. -/
  buf : Memory
  deriving DecidableEq, Repr

/-- `LinkStats` (R36, R37). -/
structure Stats where
  /-- `stats.bytes_dropped`. -/
  bytesDropped : Nat
  /-- `stats.checksum_errors`. -/
  checksumErrors : Nat
  deriving DecidableEq, Repr

/-- A decoded frame, a value and not state (R40). -/
structure Frame where
  command : Byte
  length : Byte
  payload : List Byte
  deriving DecidableEq, Repr

/-- The result of `DEC_STEP` (R130). -/
inductive DecResult where
  | empty
  | consumed
  | frame (f : Frame)
  deriving DecidableEq, Repr

/-- What an operation returns (the result column of R86). -/
inductive Result where
  /-- `ok`, one bit (`RB_PUT`, `RX_PUSH`, the `SEND` family). -/
  | ok (accepted : Bool)
  /-- A count (`RB_COUNT`, `RX_COUNT`, `TX_COUNT`). -/
  | count (n : Nat)
  /-- `NONE` or `SOME b` (`RB_GET`, `TX_POP`). -/
  | byte (b : Option Byte)
  /-- The checksum byte (`CK_XOR`). -/
  | checksum (b : Byte)
  /-- The result of `DEC_STEP`. -/
  | dec (r : DecResult)
  /-- `NONE` or `SOME f` (`POLL`). -/
  | frame (f : Option Frame)
  /-- The pair of counters (`STATS`). -/
  | stats (bytesDropped checksumErrors : Nat)
  /-- The `ok` bits of the bytes of a wire frame, in order (R91 (b)). -/
  | oks (accepted : List Bool)
  deriving DecidableEq, Repr

/-- The last value presented on each port ("presents `v` on its port", R12), and the last value returned by an
internal primitive executed by itself; `none` where there is none (log 6). -/
structure Responses where
  rxin : Option Result
  host : Option Result
  txout : Option Result
  internal : Option Result
  deriving DecidableEq, Repr

/-- The three ports (R7). -/
inductive Port where
  | rxin
  | host
  | txout
  deriving DecidableEq, Repr

/-- One turn of the environment: the RESET signal, or one agent's. A HOST turn says how many primitive steps of a
composite it may take before other agents are served: `none` is to the composite's end (R61; log 5). -/
inductive Slot where
  | reset
  | rxin
  | txout
  | host (limit : Option Nat)
  deriving DecidableEq, Repr

/-- The HOST's composite in progress (R42 (b)): none, a `POLL` still looping, or a `SEND` with the wire bytes not
yet put. -/
inductive HostOp where
  | idle
  | polling
  | sending (rest : List Byte)
  deriving DecidableEq, Repr

/-- Faults. The spec has none (R200); this one stops the model in states that no run reaches. -/
inductive Fault where
  /-- Raised by the one load and the one store operation (`load`, `store` of Ops) at an index outside the array,
  a cell that does not exist (R50). Safe: no state that meets the invariant raises it (log 3). -/
  | storageIndexOutOfRange (sp : Space) (i : Nat)
  deriving DecidableEq, Repr

/-- Refusals. -/
inductive Refusal where
  /-- Raised by an arm of `exec` that has no meaning yet. Safe. -/
  | notModelled (mnemonic : String)
  /-- Raised by `execReservedOpselect`: the command byte selects no operation (R89). Safe. -/
  | reservedOpselect (c : Byte)
  /-- Raised by `execSend` and `execSendNack`: the payload is longer than `MAX_PAYLOAD` (R163, R167). Safe. -/
  | sendOutOfDomain (cmd : Byte) (payload : List Byte)
  /-- Raised by `execFrame` and `execFrameNack`: `LEN` above `MAX_PAYLOAD`, which is no wire frame (R74, R78;
  log 9). Safe. -/
  | frameOutOfDomain (cmd : Byte) (payload : List Byte)
  /-- Raised by `serveCommand`: the port's bytes end inside a command word (log 7). Safe. -/
  | truncatedCommand (p : Port)
  /-- Raised by `serveCommand`: the port's agent cannot issue this operation (R215; log 7). Safe. -/
  | foreignPort (p : Port)
  deriving DecidableEq, Repr

/-- The machine. -/
structure State where
  /-- The parameters of this instance; no step changes them (R233; log 1). -/
  cfg : Config
  /-- The receive buffer. -/
  rx : Ring
  /-- The transmit buffer. -/
  tx : Ring
  /-- The decoder. -/
  dec : Decoder
  /-- The counters. -/
  stats : Stats
  /-- The HOST's composite in progress. -/
  host : HostOp
  /-- Results presented. -/
  resp : Responses
  /-- Command-word bytes issued on RXIN and not yet served. -/
  rxinQ : List Byte
  /-- Command-word bytes issued on HOST and not yet served. -/
  hostQ : List Byte
  /-- Command-word bytes issued on TXOUT and not yet served. -/
  txoutQ : List Byte
  /-- The turns to come, oldest first. -/
  sched : List Slot
  /-- The turn being served. -/
  turn : Slot
  deriving DecidableEq, Repr

/-- A ring buffer after reset (R28, R45), with whatever its storage holds. -/
def Ring.reset (mem : Memory) : Ring where
  rd := 0
  wr := 0
  cnt := 0
  mem := mem

/-- The decoder after reset (R30 to R35, R45), with whatever the scratch buffer holds. -/
def Decoder.reset (buf : Memory) : Decoder where
  phase := .waitStx
  len := 0x00
  cmd := 0x00
  idx := 0
  acc := 0x00
  buf := buf

/-- The machine with the parameters `c` right after power-on and RESET (R45, R230), its three storage arrays holding
any bytes ("unspecified after power-on", R28, R35); nothing is issued on any port and nothing is presented
(log 12). -/
def State.powerOn (c : Config) (rxMem txMem decBuf : Memory) : State where
  cfg := c
  rx := Ring.reset rxMem
  tx := Ring.reset txMem
  dec := Decoder.reset decBuf
  stats := { bytesDropped := 0, checksumErrors := 0 }
  host := .idle
  resp := { rxin := none, host := none, txout := none, internal := none }
  rxinQ := []
  hostQ := []
  txoutQ := []
  sched := []
  turn := .reset

/-- The same with no storage byte listed: each holds 0x00, R43's own example (log 2). -/
def State.resetWith (c : Config) : State := State.powerOn c [] [] []

/-- The machine right after reset, with `CFG_REF` (log 1). -/
def State.reset : State := State.resetWith Config.ref

end Sys2Proof.Machine
end

