-- ==== Sys2Proof/Machine/Flags.lean ====
section
/-! DEFINITION. The block stores no flag (spec/10_state.md R26): its conditions are derived from the count. Beside
them, the two arithmetic rules on stored numbers: index increment (R107) and saturating increment (R38). -/

namespace Sys2Proof.Machine

/-- `empty(q)` is `q.cnt = 0` (R26). -/
def isEmpty (q : Ring) : Bool := q.cnt == 0

/-- `full(q)` is `q.cnt = N` (R26). -/
def isFull (n : Nat) (q : Ring) : Bool := q.cnt == n

/-- `(i + 1) mod N` (R12, R107). -/
def nextIndex (n i : Nat) : Nat := (i + 1) % n

/-- The largest counter value, `2^CNT_W - 1` (R38). -/
def counterMax (c : Config) : Nat := 2 ^ c.cntW - 1

/-- `sat_inc` (R38). -/
def satInc (c : Config) (n : Nat) : Nat := if n = counterMax c then n else n + 1

end Sys2Proof.Machine
end

