-- ==== Sys2Proof/Machine/Ops.lean ====
section
/-! DEFINITION. The shared operations: storage, ring buffers, counters, results. The block takes no exception and
returns from none (spec/60_exceptions.md R200, R208, R209): what an error does is one of the two counting
operations here, and it leaves the flow of control alone. -/

namespace Sys2Proof.Machine

/-! ### Storage -/

/-- What an index that is not listed reads as. The spec lets a power-on byte have any value and names 0 as an example
(R28, R35, R43; DESIGN CHOICE, log 2). -/
def unlistedByte : Byte := 0x00

/-- The byte at an index. -/
def Memory.read : Memory → Nat → Byte
  | [], _ => unlistedByte
  | c :: m, a => if a = c.1 then c.2 else Memory.read m a

/-- List a byte in front of the cells of higher index, unless it is what an unlisted index reads as. -/
def Memory.list (a : Nat) (b : Byte) (m : Memory) : Memory := if b = unlistedByte then m else (a, b) :: m

/-- Write one byte, keeping the canonical form. -/
def Memory.write : Memory → Nat → Byte → Memory
  | [], a, b => Memory.list a b []
  | c :: m, a, b =>
    if a < c.1 then Memory.list a b (c :: m)
    else if a = c.1 then Memory.list a b m
    else c :: Memory.write m a b

/-- The canonical form: strictly rising indices, and no cell that holds what an unlisted index reads as. -/
abbrev Memory.wf (m : Memory) : Prop :=
  (m.Pairwise fun c d => c.1 < d.1) ∧ ∀ c ∈ m, c.2 ≠ unlistedByte

/-- How many cells an array has (R50). -/
def spaceSize (c : Config) : Space → Nat
  | .rxMem => c.nRx
  | .txMem => c.nTx
  | .decBuf => c.maxPayload

/-- `MemRead(space, i, 1)` (R12, R50). -/
def load (c : Config) (sp : Space) (m : Memory) (i : Nat) : Except Fault Byte :=
  if i < spaceSize c sp then .ok (m.read i) else .error (.storageIndexOutOfRange sp i)

/-- `MemWrite(space, i, 1, b)` (R12, R50). -/
def store (c : Config) (sp : Space) (m : Memory) (i : Nat) (b : Byte) : Except Fault Memory :=
  if i < spaceSize c sp then .ok (m.write i b) else .error (.storageIndexOutOfRange sp i)

/-! ### The two ring buffers -/

/-- `N` of a buffer (R23). -/
def capacity (c : Config) : Buf → Nat
  | .rx => c.nRx
  | .tx => c.nTx

/-- The storage array of a buffer (R50). -/
def bufSpace : Buf → Space
  | .rx => .rxMem
  | .tx => .txMem

/-- The buffer `q` of a state. -/
def State.ring (s : State) : Buf → Ring
  | .rx => s.rx
  | .tx => s.tx

/-- Replace the buffer `q`. -/
def State.setRing (s : State) (q : Buf) (r : Ring) : State :=
  match q with
  | .rx => { s with rx := r }
  | .tx => { s with tx := r }

/-- `RB_INIT(q)` (R101): storage is not written. -/
def initRing (q : Buf) (s : State) : State :=
  s.setRing q { s.ring q with rd := 0, wr := 0, cnt := 0 }

/-- `RB_PUT(q, b)` (R102). -/
def putByte (q : Buf) (b : Byte) (s : State) : Except Fault (Bool × State) :=
  if isFull (capacity s.cfg q) (s.ring q) then .ok (false, s)
  else
    match store s.cfg (bufSpace q) (s.ring q).mem (s.ring q).wr b with
    | .error f => .error f
    | .ok m =>
      .ok (true, s.setRing q
        { s.ring q with
          mem := m
          wr := nextIndex (capacity s.cfg q) (s.ring q).wr
          cnt := (s.ring q).cnt + 1 })

/-- `RB_GET(q)` (R103): the cell is not cleared. -/
def getByte (q : Buf) (s : State) : Except Fault (Option Byte × State) :=
  if isEmpty (s.ring q) then .ok (none, s)
  else
    match load s.cfg (bufSpace q) (s.ring q).mem (s.ring q).rd with
    | .error f => .error f
    | .ok b =>
      .ok (some b, s.setRing q
        { s.ring q with
          rd := nextIndex (capacity s.cfg q) (s.ring q).rd
          cnt := (s.ring q).cnt - 1 })

/-- `RB_COUNT(q)` (R104). -/
def countBytes (q : Buf) (s : State) : Nat := (s.ring q).cnt

/-! ### The decoder and the counters -/

/-- Replace the decoder registers. -/
def State.setDec (s : State) (d : Decoder) : State := { s with dec := d }

/-- One dropped byte: `stats.bytes_dropped <- sat_inc(stats.bytes_dropped)` (R132, R134, R176). -/
def countDropped (s : State) : State :=
  { s with stats := { s.stats with bytesDropped := satInc s.cfg s.stats.bytesDropped } }

/-- One rejected frame: `stats.checksum_errors <- sat_inc(stats.checksum_errors)` (R140). -/
def countChecksumError (s : State) : State :=
  { s with stats := { s.stats with checksumErrors := satInc s.cfg s.stats.checksumErrors } }

/-! ### Results -/

/-- Present a result on a port (R12). -/
def present (p : Port) (r : Result) (s : State) : State :=
  match p with
  | .rxin => { s with resp := { s.resp with rxin := some r } }
  | .host => { s with resp := { s.resp with host := some r } }
  | .txout => { s with resp := { s.resp with txout := some r } }

/-- The value an internal primitive returned; `none` for one that returns nothing. -/
def giveBack (r : Option Result) (s : State) : State :=
  { s with resp := { s.resp with internal := r } }

/-- The HOST begins a composite: nothing is presented until it returns. -/
def beginHost (op : HostOp) (s : State) : State :=
  { s with host := op, resp := { s.resp with host := none } }

/-- The HOST's composite is cut here and stays in progress (R61). -/
def pauseHost (op : HostOp) (s : State) : State := { s with host := op }

/-- The HOST's composite returns `r`. -/
def endHost (r : Result) (s : State) : State := present .host r { s with host := .idle }

/-- How many primitive steps the turn lets a composite take; `none` is to its end (R61; log 5). -/
def turnLimit : Slot → Option Nat
  | .host limit => limit
  | .reset => none
  | .rxin => none
  | .txout => none

/-- `TX_COUNT` answers on the port it was issued on: TXOUT, or HOST in a HOST turn (R181; log 8). -/
def countPort : Slot → Port
  | .host _ => .host
  | .reset => .txout
  | .rxin => .txout
  | .txout => .txout

/-- The outcome of an operation that cannot refuse. -/
def outcome : Except Fault State → Host.Outcome State Fault Refusal
  | .ok s => .next s
  | .error f => .fault f

end Sys2Proof.Machine
end

