-- ==== Sys2Proof/Machine/Checksum.lean ====
section
/-! DEFINITION. The internal function `CK_XOR` (spec/41_checksum.md R121). -/

namespace Sys2Proof.Machine

/-- `CK_XOR(xs)` (R121): a function of its operand that changes no state of the block (R126). -/
def execCkXor (xs : List Byte) (s : State) : Host.Outcome State Fault Refusal :=
  .next (giveBack (some (.checksum (xorFold xs))) s)

end Sys2Proof.Machine
end

