-- ==== Sys2Proof/Machine/FrameDecoder.lean ====
section
/-! DEFINITION. The frame decoder: `DEC_STEP` and `POLL` (spec/42_decoder.md). -/

namespace Sys2Proof.Machine

/-- The `n` bytes of the scratch buffer from index `i` on (R141). -/
def loadRange (c : Config) (m : Memory) : Nat → Nat → Except Fault (List Byte)
  | _, 0 => .ok []
  | i, n + 1 =>
    match load c .decBuf m i with
    | .error f => .error f
    | .ok b => (loadRange c m (i + 1) n).map fun bs => b :: bs

/-- Phase `WAIT_STX` (R131, R132). -/
def decodeWaitStx (b : Byte) (s : State) : State :=
  if b = s.cfg.stx then s.setDec { s.dec with acc := 0x00, phase := .awaitLen }
  else countDropped s

/-- Phase `AWAIT_LEN` (R133, R134): the comparison comes before anything is stored (C9). -/
def decodeAwaitLen (b : Byte) (s : State) : State :=
  if s.cfg.maxPayload < b.toNat then
    (countDropped s).setDec { s.dec with phase := .waitStx }
  else s.setDec { s.dec with len := b, acc := b, phase := .awaitCmd }

/-- Phase `AWAIT_CMD` (R135, R136). -/
def decodeAwaitCmd (b : Byte) (s : State) : State :=
  s.setDec
    { s.dec with
      cmd := b
      acc := s.dec.acc ^^^ b
      idx := 0
      phase := if 0 < s.dec.len.toNat then .awaitPayload else .awaitCrc }

/-- Phase `AWAIT_PAYLOAD` (R137 to R139). -/
def decodeAwaitPayload (b : Byte) (s : State) : Except Fault State :=
  (store s.cfg .decBuf s.dec.buf s.dec.idx b).map fun m =>
    s.setDec
      { s.dec with
        buf := m
        acc := s.dec.acc ^^^ b
        idx := s.dec.idx + 1
        phase := if s.dec.idx + 1 = s.dec.len.toNat then .awaitCrc else .awaitPayload }

/-- Phase `AWAIT_CRC` (R140, R141): the registers other than the phase keep their values (R144). -/
def decodeAwaitCrc (b : Byte) (s : State) : Except Fault (DecResult × State) :=
  let back := s.setDec { s.dec with phase := .waitStx }
  if b = s.dec.acc then
    (loadRange s.cfg s.dec.buf 0 s.dec.len.toNat).map fun payload =>
      (.frame { command := s.dec.cmd, length := s.dec.len, payload := payload }, back)
  else .ok (.consumed, countChecksumError back)

/-- What a byte taken from `rx` does, by the phase (R143, R145). -/
def decodeByte (b : Byte) (s : State) : Except Fault (DecResult × State) :=
  match s.dec.phase with
  | .waitStx => .ok (.consumed, decodeWaitStx b s)
  | .awaitLen => .ok (.consumed, decodeAwaitLen b s)
  | .awaitCmd => .ok (.consumed, decodeAwaitCmd b s)
  | .awaitPayload => (decodeAwaitPayload b s).map fun t => (.consumed, t)
  | .awaitCrc => decodeAwaitCrc b s

/-- `DEC_STEP` (R143). -/
def decodeStep (s : State) : Except Fault (DecResult × State) :=
  match getByte .rx s with
  | .error f => .error f
  | .ok (none, t) => .ok (.empty, t)
  | .ok (some b, t) => decodeByte b t

/-- `DEC_STEP` by itself (R143). -/
def execDecStep (s : State) : Host.Outcome State Fault Refusal :=
  outcome ((decodeStep s).map fun r => giveBack (some (.dec r.1)) r.2)

/-- The loop of `POLL` for at most so many `DEC_STEP`s; one that has not returned by then stays in progress
(R146, R61). -/
def pollLoop : Nat → State → Except Fault State
  | 0, s => .ok (pauseHost .polling s)
  | n + 1, s =>
    match decodeStep s with
    | .error f => .error f
    | .ok (.empty, t) => .ok (endHost (.frame none) t)
    | .ok (.frame f, t) => .ok (endHost (.frame (some f)) t)
    | .ok (.consumed, t) => pollLoop n t

/-- How many `DEC_STEP`s a `POLL` may take in this turn. Uninterrupted it takes at most `rx.cnt + 1` (R152), so
that number is no limit. -/
def pollSteps (s : State) : Nat :=
  match turnLimit s.turn with
  | none => s.rx.cnt + 1
  | some n => n

/-- Go on with a `POLL` in progress. -/
def resumePoll (s : State) : Host.Outcome State Fault Refusal := outcome (pollLoop (pollSteps s) s)

/-- `POLL` (R146), from its start to its end or to the end of the turn. -/
def execPoll (s : State) : Host.Outcome State Fault Refusal := resumePoll (beginHost .polling s)

end Sys2Proof.Machine
end

