-- ==== Sys2Proof/Machine/FrameEncoder.lean ====
section
/-! DEFINITION. The frame encoder: `SEND`, `SEND_ACK`, `SEND_NACK` (spec/43_encoder.md). -/

namespace Sys2Proof.Machine

/-- The loop of `SEND` over the wire bytes still to be put: it stops at the first refused put (R160, R164). The
limit is the number of puts this turn may take; what is left stays in progress (R61). -/
def sendLoop : Option Nat → List Byte → State → Except Fault State
  | _, [], s => .ok (endHost (.ok true) s)
  | some 0, x :: xs, s => .ok (pauseHost (.sending (x :: xs)) s)
  | limit, x :: xs, s =>
    match putByte .tx x s with
    | .error f => .error f
    | .ok (false, t) => .ok (endHost (.ok false) t)
    | .ok (true, t) => sendLoop (limit.map (· - 1)) xs t

/-- Go on with a `SEND` in progress. -/
def resumeSend (rest : List Byte) (s : State) : Host.Outcome State Fault Refusal :=
  outcome (sendLoop (turnLimit s.turn) rest s)

/-- Send one frame, from the start to the end or to the end of the turn (R160). -/
def sendFrame (cmd : Byte) (payload : List Byte) (s : State) : Host.Outcome State Fault Refusal :=
  if payloadFits s.cfg payload then
    resumeSend (wireBytes s.cfg cmd payload)
      (beginHost (.sending (wireBytes s.cfg cmd payload)) s)
  else .refused (.sendOutOfDomain cmd payload)

/-- `SEND(cmd, payload)` (R160); a longer payload than `MAX_PAYLOAD` is refused (R163). -/
def execSend (cmd : Byte) (payload : List Byte) (s : State) : Host.Outcome State Fault Refusal :=
  sendFrame cmd payload s

/-- `SEND_ACK` is `SEND(OP_ACK, [])` (R166). -/
def execSendAck (s : State) : Host.Outcome State Fault Refusal := sendFrame s.cfg.opAck [] s

/-- `SEND_NACK(r)` is `SEND(OP_NACK, [r])` (R167); it does not exist when `MAX_PAYLOAD = 0`. -/
def execSendNack (r : Byte) (s : State) : Host.Outcome State Fault Refusal :=
  sendFrame s.cfg.opNack [r] s

end Sys2Proof.Machine
end

