-- ==== Sys2Proof/Machine/LinkPorts.lean ====
section
/-! DEFINITION. The link service ports: `RX_PUSH`, `RX_COUNT`, `TX_POP`, `TX_COUNT`, `STATS`
(spec/44_link_ports.md), and the command bytes that select nothing (spec/30_encoding.md R89). -/

namespace Sys2Proof.Machine

/-- A byte offered to `rx`: a refused one is counted (R176; C4, D6). -/
def pushByte (b : Byte) (s : State) : Except Fault (Bool × State) :=
  (putByte .rx b s).map fun r => (r.1, if r.1 then r.2 else countDropped r.2)

/-- `RX_PUSH(b)` (R176). -/
def execRxPush (b : Byte) (s : State) : Host.Outcome State Fault Refusal :=
  outcome ((pushByte b s).map fun r => present .rxin (.ok r.1) r.2)

/-- `RX_COUNT` (R178). -/
def execRxCount (s : State) : Host.Outcome State Fault Refusal :=
  .next (present .rxin (.count (countBytes .rx s)) s)

/-- `TX_POP` (R179). -/
def execTxPop (s : State) : Host.Outcome State Fault Refusal :=
  outcome ((getByte .tx s).map fun r => present .txout (.byte r.1) r.2)

/-- `TX_COUNT` (R181). -/
def execTxCount (s : State) : Host.Outcome State Fault Refusal :=
  .next (present (countPort s.turn) (.count (countBytes .tx s)) s)

/-- `STATS` (R182): both counters from the same instant, neither cleared. -/
def execStats (s : State) : Host.Outcome State Fault Refusal :=
  .next (present .host (.stats s.stats.bytesDropped s.stats.checksumErrors) s)

/-- `RESERVED_OPSELECT`: "selects no operation. A model refuses it (gives it no meaning)" (R89). -/
def execReservedOpselect (c : Byte) (_s : State) : Host.Outcome State Fault Refusal :=
  .refused (.reservedOpselect c)

end Sys2Proof.Machine
end

