-- ==== Sys2Proof/Machine/ResetSignal.lean ====
section
/-! DEFINITION. The RESET signal (spec/70_reset_and_hazards.md R230, R231). -/

namespace Sys2Proof.Machine

/-- `RESET` (R230): `rx.mem`, `tx.mem` and `dec.buf` are not written. A composite in progress is abandoned with no
result (R231); what the agents have issued and been given is theirs (log 10). -/
def execReset (s : State) : Host.Outcome State Fault Refusal :=
  .next
    { initRing .tx (initRing .rx s) with
      dec := { s.dec with phase := .waitStx, len := 0x00, cmd := 0x00, idx := 0, acc := 0x00 }
      stats := { bytesDropped := 0, checksumErrors := 0 }
      host := .idle }

end Sys2Proof.Machine
end

