-- ==== Sys2Proof/Machine/RingBuffer.lean ====
section
/-! DEFINITION. The internal primitives `RB_INIT`, `RB_PUT`, `RB_GET`, `RB_COUNT`
(spec/40_ringbuffer.md R101 to R104). -/

namespace Sys2Proof.Machine

/-- `RB_INIT(q)` (R101), which returns nothing. -/
def execRbInit (q : Buf) (s : State) : Host.Outcome State Fault Refusal :=
  .next (giveBack none (initRing q s))

/-- `RB_PUT(q, b)` (R102); it changes no counter. -/
def execRbPut (q : Buf) (b : Byte) (s : State) : Host.Outcome State Fault Refusal :=
  outcome ((putByte q b s).map fun r => giveBack (some (.ok r.1)) r.2)

/-- `RB_GET(q)` (R103). -/
def execRbGet (q : Buf) (s : State) : Host.Outcome State Fault Refusal :=
  outcome ((getByte q s).map fun r => giveBack (some (.byte r.1)) r.2)

/-- `RB_COUNT(q)` (R104). -/
def execRbCount (q : Buf) (s : State) : Host.Outcome State Fault Refusal :=
  .next (giveBack (some (.count (countBytes q s))) s)

end Sys2Proof.Machine
end

