-- ==== Sys2Proof/Machine/WireFrames.lean ====
section
/-! DEFINITION. The wire-frame rows `FRAME`, `FRAME_ACK`, `FRAME_NACK`: a frame arriving on the link. Its bytes are
offered to `rx` in wire order (spec/00_scope.md R8, spec/20_memory.md R54, spec/30_encoding.md R70, R71, R81, R91
(b)); a `POLL` decodes them later. DESIGN CHOICE (log 9). -/

namespace Sys2Proof.Machine

/-- Offer bytes to `rx` one after the other; the result lists the `ok` bits (R91 (b)). -/
def feedBytes : List Byte → State → Except Fault (List Bool × State)
  | [], s => .ok ([], s)
  | b :: bs, s =>
    match pushByte b s with
    | .error f => .error f
    | .ok (ok, t) => (feedBytes bs t).map fun r => (ok :: r.1, r.2)

/-- The arrival of one wire frame. -/
def arriveFrame (cmd : Byte) (payload : List Byte) (s : State) : Host.Outcome State Fault Refusal :=
  if payloadFits s.cfg payload then
    outcome ((feedBytes (wireBytes s.cfg cmd payload) s).map fun r => present .rxin (.oks r.1) r.2)
  else .refused (.frameOutOfDomain cmd payload)

/-- `FRAME` (R70, R71). -/
def execFrame (cmd : Byte) (payload : List Byte) (s : State) : Host.Outcome State Fault Refusal :=
  arriveFrame cmd payload s

/-- `FRAME_ACK`: `STX`, 0x00, `OP_ACK`, `OP_ACK` (R81). -/
def execFrameAck (s : State) : Host.Outcome State Fault Refusal := arriveFrame s.cfg.opAck [] s

/-- `FRAME_NACK`: `STX`, 0x01, `OP_NACK`, `r`, `0x01 xor OP_NACK xor r` (R81). -/
def execFrameNack (r : Byte) (s : State) : Host.Outcome State Fault Refusal :=
  arriveFrame s.cfg.opNack [r] s

end Sys2Proof.Machine
end

