-- ==== Sys2Proof/Machine/Dispatch.lean ====
section
/-! DEFINITION. One arm per row of the opcode table. -/

namespace Sys2Proof.Machine

def exec (i : Instr) (s : State) : Host.Outcome State Fault Refusal :=
  match i with
  | .reset => Sys2Proof.Machine.execReset s
  | .rbInit q => Sys2Proof.Machine.execRbInit q s
  | .rbPut q b => Sys2Proof.Machine.execRbPut q b s
  | .rbGet q => Sys2Proof.Machine.execRbGet q s
  | .rbCount q => Sys2Proof.Machine.execRbCount q s
  | .ckXor xs => Sys2Proof.Machine.execCkXor xs s
  | .decStep => Sys2Proof.Machine.execDecStep s
  | .rxPush b => Sys2Proof.Machine.execRxPush b s
  | .rxCount => Sys2Proof.Machine.execRxCount s
  | .txPop => Sys2Proof.Machine.execTxPop s
  | .txCount => Sys2Proof.Machine.execTxCount s
  | .poll => Sys2Proof.Machine.execPoll s
  | .send cmd payload => Sys2Proof.Machine.execSend cmd payload s
  | .sendAck => Sys2Proof.Machine.execSendAck s
  | .sendNack r => Sys2Proof.Machine.execSendNack r s
  | .stats => Sys2Proof.Machine.execStats s
  | .reservedOpselect c => Sys2Proof.Machine.execReservedOpselect c s
  | .frame cmd payload => Sys2Proof.Machine.execFrame cmd payload s
  | .frameAck => Sys2Proof.Machine.execFrameAck s
  | .frameNack r => Sys2Proof.Machine.execFrameNack r s

end Sys2Proof.Machine
end

