-- ==== Sys2Proof/Machine/Fetch.lean ====
section
/-! DEFINITION. Serving the ports: which operation a turn runs (spec/00_scope.md R7, spec/20_memory.md R60, R61,
spec/30_encoding.md R87, spec/60_exceptions.md R215). The block has no program counter (R22): an agent's next
operation is the next command word of its port (log 4). -/

namespace Sys2Proof.Machine

/-- The command bytes issued on a port and not yet served. -/
def State.queue (s : State) : Port → List Byte
  | .rxin => s.rxinQ
  | .host => s.hostQ
  | .txout => s.txoutQ

/-- Replace a port's command bytes. -/
def State.setQueue (s : State) (p : Port) (bs : List Byte) : State :=
  match p with
  | .rxin => { s with rxinQ := bs }
  | .host => { s with hostQ := bs }
  | .txout => { s with txoutQ := bs }

/-- The operations of a port (R7, R215); `TX_COUNT` on HOST by R181 (log 8). A command byte that selects nothing
belongs to no port and is refused wherever it stands (R89); rows with no command word are on no port (R87). -/
def allowedAt (p : Port) : Instr → Bool
  | .rxPush _ => p == .rxin
  | .rxCount => p == .rxin
  | .txPop => p == .txout
  | .txCount => p == .txout || p == .host
  | .poll => p == .host
  | .send _ _ => p == .host
  | .sendAck => p == .host
  | .sendNack _ => p == .host
  | .stats => p == .host
  | .reservedOpselect _ => true
  | .reset => false
  | .rbInit _ => false
  | .rbPut _ _ => false
  | .rbGet _ => false
  | .rbCount _ => false
  | .ckXor _ => false
  | .decStep => false
  | .frame _ _ => false
  | .frameAck => false
  | .frameNack _ => false

/-- Serve a port: run its next command word. An agent that has issued nothing leaves the block as it is (R220). -/
def serveCommand (p : Port) (s : State) : Host.Outcome State Fault Refusal :=
  match decode (s.queue p) with
  | .error .empty => .next s
  | .error _ => .refused (.truncatedCommand p)
  | .ok (i, rest) =>
    if allowedAt p i then exec i (s.setQueue p rest) else .refused (.foreignPort p)

/-- Serve the HOST: it issues one operation at a time, so a composite in progress goes on (R61). -/
def serveHost (s : State) : Host.Outcome State Fault Refusal :=
  match s.host with
  | .idle => serveCommand .host s
  | .polling => resumePoll s
  | .sending rest => resumeSend rest s

/-- Serve one turn. -/
def serveSlot (slot : Slot) (s : State) : Host.Outcome State Fault Refusal :=
  match slot with
  | .reset => exec .reset s
  | .rxin => serveCommand .rxin s
  | .txout => serveCommand .txout s
  | .host _ => serveHost s

/-- Serve the next turn of the environment; with none to come the block holds its state (R220). -/
def serveNext (s : State) : Host.Outcome State Fault Refusal :=
  match s.sched with
  | [] => .next s
  | slot :: rest => serveSlot slot { s with sched := rest, turn := slot }

/-- The turn in which a port's agent is served to the end of its operation. -/
def wholeTurn : Port → Slot
  | .rxin => .rxin
  | .host => .host none
  | .txout => .txout

/-- The port that issues an instruction; HOST for what no port can issue. -/
def homePort (i : Option Instr) : Port :=
  match i with
  | some (.rxPush _) => .rxin
  | some .rxCount => .rxin
  | some .txPop => .txout
  | some .txCount => .txout
  | _ => .host

/-- Issue command bytes on a port and give its agent the next turn, the HOST having nothing in progress. -/
def issue (p : Port) (bs : List Byte) (s : State) : State :=
  { s.setQueue p bs with sched := [wholeTurn p], host := .idle }

end Sys2Proof.Machine
end

