-- ==== Sys2Proof/Machine/Step.lean ====
section
/-! DEFINITION. One step: the next turn of the environment is served. -/

namespace Sys2Proof.Machine

/-- One step (R60): the next turn of `sched`. -/
def step (s : State) : Host.Outcome State Fault Refusal := serveNext s

/-- The same machine with the table word's instruction issued on its port as the very next operation (log 12). -/
def State.withFetchWord (s : State) (nbits w : Nat) : State :=
  issue (homePort (decodeTableWord nbits w)) (tableWordBytes nbits w) s

end Sys2Proof.Machine
end

