-- ==== Sys2Proof/Safety.lean ====
section
/-! DEFINITION. What the claims speak of: the list view of a ring buffer (spec/10_state.md R24, R25), the
invariants the spec states (R24, R31, R33, R34, R38), what an agent can tell of a state (R25, R43), and series of polls
and of pops. -/

namespace Sys2Proof.Machine

/-- `content(q)`, the buffered bytes from oldest to newest (R24). -/
def content (n : Nat) (q : Ring) : List Byte :=
  (List.range q.cnt).map fun k => q.mem.read ((q.rd + k) % n)

/-- The first `n` bytes of the scratch buffer. -/
def bufBytes (m : Memory) (n : Nat) : List Byte := (List.range n).map fun i => m.read i

/-- A storage array: canonical, and with no cell the array does not have (R50). -/
abbrev StorageInv (size : Nat) (m : Memory) : Prop := m.wf ∧ ∀ c ∈ m, c.1 < size

/-- The invariant of a ring buffer of capacity `n` (R24); the bytes outside its content are any bytes (R28). -/
structure RingInv (n : Nat) (q : Ring) : Prop where
  cnt_le : q.cnt ≤ n
  rd_lt : q.rd < n
  wr_lt : q.wr < n
  wr_eq : q.wr = (q.rd + q.cnt) % n
  storage : StorageInv n q.mem

/-- The invariants of the decoder (R31, R33, R34, R122); the scratch bytes not yet collected are any bytes (R35). -/
structure DecoderInv (maxPayload : Nat) (d : Decoder) : Prop where
  len_le : d.len.toNat ≤ maxPayload
  idx_le : d.idx ≤ maxPayload
  acc_len : d.phase = .awaitLen → d.acc = 0x00
  acc_cmd : d.phase = .awaitCmd → d.acc = d.len
  idx_payload : d.phase = .awaitPayload → d.idx < d.len.toNat
  idx_crc : d.phase = .awaitCrc → d.idx = d.len.toNat
  acc_fold : d.phase = .awaitPayload ∨ d.phase = .awaitCrc →
    d.acc = xorFold (d.len :: d.cmd :: bufBytes d.buf d.idx)
  storage : StorageInv maxPayload d.buf

/-- The invariant of the block. -/
structure State.Inv (s : State) : Prop where
  legal : s.cfg.Legal
  rx : RingInv s.cfg.nRx s.rx
  tx : RingInv s.cfg.nTx s.tx
  dec : DecoderInv s.cfg.maxPayload s.dec
  dropped_le : s.stats.bytesDropped ≤ counterMax s.cfg
  errors_le : s.stats.checksumErrors ≤ counterMax s.cfg

/-- The invariant of the HOST's composite: one in progress has presented nothing, and a `SEND` in progress has a
byte left to put. -/
structure HostInv (s : State) : Prop where
  quiet : s.host ≠ .idle → s.resp.host = none
  rest_ne : s.host ≠ .sending []

/-- The content of the receive buffer. -/
def rxContent (s : State) : List Byte := content s.cfg.nRx s.rx

/-- The content of the transmit buffer. -/
def txContent (s : State) : List Byte := content s.cfg.nTx s.tx

/-- The content of either buffer. -/
def bufContent (s : State) (q : Buf) : List Byte := content (capacity s.cfg q) (s.ring q)

/-- Two states that differ only where no agent can look: where a buffer keeps its content, the stale bytes around it,
and the scratch bytes not collected for a frame in progress (R25, R35, R43). -/
structure SameView (s t : State) : Prop where
  rest : t = { s with rx := t.rx, tx := t.tx, dec := { s.dec with buf := t.dec.buf } }
  rx : rxContent t = rxContent s
  tx : txContent t = txContent s
  buf : s.dec.phase = .awaitPayload ∨ s.dec.phase = .awaitCrc →
    bufBytes t.dec.buf s.dec.idx = bufBytes s.dec.buf s.dec.idx

/-- The HOST polls until `POLL` returns `NONE`, for at most so many polls: the frames returned, in order, and the
state after (R244). -/
def pollUntilNone : Nat → State → Option (List Frame × State)
  | 0, _ => none
  | n + 1, s =>
    match exec .poll s with
    | .next t =>
      match t.resp.host with
      | some (.frame none) => some ([], t)
      | some (.frame (some f)) => (pollUntilNone n t).map fun r => (f :: r.1, r.2)
      | _ => none
    | _ => none

/-- `TX_DRAIN` (R91 (c)): `TX_POP` repeated until it returns `NONE`, at most so many times: the bytes returned, in
order, and the state after. -/
def txDrain : Nat → State → Option (List Byte × State)
  | 0, _ => none
  | n + 1, s =>
    match exec .txPop s with
    | .next t =>
      match t.resp.txout with
      | some (.byte none) => some ([], t)
      | some (.byte (some b)) => (txDrain n t).map fun r => (b :: r.1, r.2)
      | _ => none
    | _ => none

/-- The step does not end in a fault (R200). -/
def notFault : Host.Outcome State Fault Refusal → Bool
  | .next _ => true
  | .fault _ => false
  | .refused _ => true

end Sys2Proof.Machine
end

