-- ==== Sys2Proof/Certificates/Slice0/Obligations.lean ====
section
/-! DEFINITION. The statements about the block, one for each entry of OBLIGATIONS.json. `turnLimit s.turn = none` says
that no other agent cuts a composite (R61: the source's own execution model); a turn's length is log 5. The field
`resp` records what was presented (log 6); the turns and the port queues are the environment (log 4). -/

open Sys2Proof Sys2Proof.Machine

/-! ### Encodings -/

/-- The op-select table of R87, one word for each row (the spec's own encoding, D15). -/
def Obligations.CommandWordsDecodeAsTabled : Prop :=
  decode [0x00, 0x41] = .ok (.rxPush 0x41, []) ∧
  decode [0x01] = .ok (.rxCount, []) ∧
  decode [0x02] = .ok (.txPop, []) ∧
  decode [0x03] = .ok (.txCount, []) ∧
  decode [0x04] = .ok (.poll, []) ∧
  decode [0x05, 0x20, 0x02, 0x01, 0x02] = .ok (.send 0x20 [0x01, 0x02], []) ∧
  decode [0x06] = .ok (.sendAck, []) ∧
  decode [0x07, 0x15] = .ok (.sendNack 0x15, []) ∧
  decode [0x08] = .ok (.stats, []) ∧
  decode [0x0F] = .ok (.reservedOpselect 0x0F, [])

/-- Decoding a well-formed command word gives the instruction back, and the bytes after it (R87, R88; D15). -/
def Obligations.DecodeOfEncodedCommand : Prop :=
  ∀ (cfg : Config) (i : Instr) (bs tail : List Byte),
    cfg.Legal → wellFormed cfg i = true → encodeCommand i = some bs →
    decode (bs ++ tail) = .ok (i, tail)

/-- What decodes is exactly the encoding of what it decodes to: no two words mean one instruction, and no bit is
ignored (R87, R88; D15). -/
def Obligations.DecodedCommandIsItsEncoding : Prop :=
  ∀ (bs tail : List Byte) (i : Instr), decode bs = .ok (i, tail) →
    ∃ word, encodeCommand i = some word ∧ bs = word ++ tail

/-- Decoding the bytes of a well-formed wire-frame row gives the row its bytes belong to (R70, R71, R77, R81). -/
def Obligations.DecodeOfEncodedWireFrame : Prop :=
  ∀ (cfg : Config) (i : Instr) (bs tail : List Byte),
    cfg.Legal → wellFormed cfg i = true → encodeWire cfg i = some bs →
    decodeWire cfg (bs ++ tail) = .ok (canonicalRow cfg i, tail)

/-- The bytes accepted as one wire frame are exactly the valid frames of R78, and in them the exclusive-or of all
bytes after `STX` is 0x00. -/
def Obligations.WireFrameAcceptedIffValid : Prop :=
  ∀ (cfg : Config) (bs : List Byte), cfg.Legal →
    ((∃ i, decodeWire cfg bs = .ok (i, [])) ↔
      ∃ (len : Byte) (body : List Byte) (crc : Byte),
        bs = cfg.stx :: len :: (body ++ [crc]) ∧ len.toNat ≤ cfg.maxPayload ∧
        bs.length = len.toNat + 4 ∧ crc = xorFold (len :: body)) ∧
    ((∃ i, decodeWire cfg bs = .ok (i, [])) ↔
      ∃ (len : Byte) (rest : List Byte),
        bs = cfg.stx :: len :: rest ∧ len.toNat ≤ cfg.maxPayload ∧
        bs.length = len.toNat + 4 ∧ xorFold (len :: rest) = 0x00)

/-- A command byte whose high nibble is not 0, or whose op-select code is 0x9 to 0xF, selects no operation, and the
machine refuses it on whatever port it stands (R89; D15). -/
def Obligations.ReservedOpselectRefused : Prop :=
  (∀ (c : Byte) (rest : List Byte),
    decode (c :: rest) = .ok (.reservedOpselect c, rest) ↔
      (c.toNat / 16 ≠ 0 ∨ 9 ≤ c.toNat % 16)) ∧
  (∀ (c : Byte) (s : State), exec (.reservedOpselect c) s = .refused (.reservedOpselect c)) ∧
  (∀ (c : Byte) (rest : List Byte) (s : State) (turns : List Slot),
    (c.toNat / 16 ≠ 0 ∨ 9 ≤ c.toNat % 16) →
    (s.sched = .rxin :: turns → s.rxinQ = c :: rest → step s = .refused (.reservedOpselect c)) ∧
    (s.sched = .txout :: turns → s.txoutQ = c :: rest → step s = .refused (.reservedOpselect c)) ∧
    (∀ limit, s.sched = .host limit :: turns → s.host = .idle → s.hostQ = c :: rest →
      step s = .refused (.reservedOpselect c)))

/-- A `SEND` or a wire frame longer than `MAX_PAYLOAD` is outside the operation's domain and refused
(R163, R167, D13; for the wire frames log 9). -/
def Obligations.OutOfDomainRefused : Prop :=
  ∀ (s : State) (cmd r : Byte) (payload : List Byte),
    (s.cfg.maxPayload < payload.length →
      exec (.send cmd payload) s = .refused (.sendOutOfDomain cmd payload) ∧
      exec (.frame cmd payload) s = .refused (.frameOutOfDomain cmd payload)) ∧
    (s.cfg.maxPayload = 0 →
      exec (.sendNack r) s = .refused (.sendOutOfDomain s.cfg.opNack [r]) ∧
      exec (.frameNack r) s = .refused (.frameOutOfDomain s.cfg.opNack [r]))

/-! ### The checksum unit -/

/-- `CK_XOR` (R121): it returns the bytewise exclusive-or, whose bit `i` counts the operands' bits `i` modulo 2; the
order of the bytes does not matter; it is the frame's checksum; nothing else changes. -/
def Obligations.CkXorIsBytewiseParity : Prop :=
  (∀ (xs : List Byte) (s : State),
    exec (.ckXor xs) s =
      .next { s with resp := { s.resp with internal := some (.checksum (xorFold xs)) } }) ∧
  (∀ (xs : List Byte) (i : Nat),
    (xorFold xs).getLsbD i = (xs.countP (fun x => x.getLsbD i) % 2 == 1)) ∧
  xorFold [] = 0x00 ∧
  (∀ xs ys : List Byte, xs.Perm ys → xorFold xs = xorFold ys) ∧
  (∀ (cmd : Byte) (payload : List Byte),
    frameCrc cmd payload = xorFold ([lenByte payload, cmd] ++ payload)) ∧
  xorFold [0x01, 0x10, 0x50] = 0x41

/-- The check form: a byte is the checksum exactly when the checksum with it appended is 0x00 (R123). -/
def Obligations.ChecksumCheckForm : Prop :=
  ∀ (xs : List Byte) (c : Byte), c = xorFold xs ↔ xorFold (xs ++ [c]) = 0x00

/-! ### The ring buffer -/

/-- `RB_INIT` (R101; the zero indices and the untouched storage are D4): from every state. -/
def Obligations.RbInitEmpties : Prop :=
  ∀ (q : Buf) (s : State), ∃ t,
    exec (.rbInit q) s = .next t ∧
    t = { s.setRing q { rd := 0, wr := 0, cnt := 0, mem := (s.ring q).mem } with
          resp := { s.resp with internal := none } } ∧
    bufContent t q = [] ∧ isEmpty (t.ring q) = true ∧
    (1 ≤ capacity s.cfg q → isFull (capacity s.cfg q) (t.ring q) = false)

/-- `RB_PUT` (R102): a full buffer refuses and is unchanged; otherwise the byte is stored at the write index, which
advances modulo `N`, and becomes the newest byte. No counter and no other byte changes. -/
def Obligations.RbPutAppendsOrRefuses : Prop :=
  ∀ (q : Buf) (b : Byte) (s : State), s.Inv →
    ((s.ring q).cnt = capacity s.cfg q →
      exec (.rbPut q b) s =
        .next { s with resp := { s.resp with internal := some (.ok false) } }) ∧
    ((s.ring q).cnt < capacity s.cfg q → ∃ r : Ring,
      exec (.rbPut q b) s =
        .next { s.setRing q r with resp := { s.resp with internal := some (.ok true) } } ∧
      r.rd = (s.ring q).rd ∧
      r.wr = ((s.ring q).wr + 1) % capacity s.cfg q ∧
      r.cnt = (s.ring q).cnt + 1 ∧
      r.mem.read (s.ring q).wr = b ∧
      (∀ a, a ≠ (s.ring q).wr → r.mem.read a = (s.ring q).mem.read a) ∧
      content (capacity s.cfg q) r = content (capacity s.cfg q) (s.ring q) ++ [b] ∧
      isEmpty r = false ∧
      (isFull (capacity s.cfg q) r = true ↔ (s.ring q).cnt + 1 = capacity s.cfg q))

/-- `RB_GET` (R103): an empty buffer returns `NONE` and nothing changes; otherwise the oldest byte is returned, the
read index advances modulo `N`, and no storage cell is written. -/
def Obligations.RbGetRemovesOldest : Prop :=
  ∀ (q : Buf) (s : State), s.Inv →
    ((s.ring q).cnt = 0 →
      exec (.rbGet q) s =
        .next { s with resp := { s.resp with internal := some (.byte none) } }) ∧
    (∀ b rest, bufContent s q = b :: rest → ∃ r : Ring,
      exec (.rbGet q) s =
        .next { s.setRing q r with resp := { s.resp with internal := some (.byte (some b)) } } ∧
      r = { rd := ((s.ring q).rd + 1) % capacity s.cfg q, wr := (s.ring q).wr,
            cnt := (s.ring q).cnt - 1, mem := (s.ring q).mem } ∧
      (s.ring q).mem.read (s.ring q).rd = b ∧
      content (capacity s.cfg q) r = rest ∧
      (isEmpty r = true ↔ (s.ring q).cnt = 1) ∧
      isFull (capacity s.cfg q) r = false)

/-- `RB_COUNT` (R104): the count, which is the number of buffered bytes and at most `N`; a pure read. -/
def Obligations.RbCountIsLength : Prop :=
  ∀ (q : Buf) (s : State), s.Inv →
    exec (.rbCount q) s =
      .next { s with resp := { s.resp with internal := some (.count (bufContent s q).length) } } ∧
    (bufContent s q).length = (s.ring q).cnt ∧ (s.ring q).cnt ≤ capacity s.cfg q

/-- R106: a put into an empty buffer followed by a get returns the same byte; a put into a full buffer fails without
corrupting the queued bytes; a get from an empty buffer returns `NONE`. -/
def Obligations.RingTestableLaws : Prop :=
  ∀ (q : Buf) (b : Byte) (s : State), s.Inv →
    ((s.ring q).cnt = 0 → ∃ t u,
      exec (.rbPut q b) s = .next t ∧ exec (.rbGet q) t = .next u ∧
      u.resp.internal = some (.byte (some b)) ∧ bufContent u q = []) ∧
    ((s.ring q).cnt = capacity s.cfg q → ∃ t,
      exec (.rbPut q b) s = .next t ∧ t.resp.internal = some (.ok false) ∧
      bufContent t q = bufContent s q) ∧
    ((s.ring q).cnt = 0 → ∃ t,
      exec (.rbGet q) s = .next t ∧ t.resp.internal = some (.byte none) ∧ bufContent t q = [])

/-- The simultaneous put and get of R66, in both orders: on a full buffer get-then-put accepts the byte and
put-then-get refuses it; on an empty buffer put-then-get returns the byte and get-then-put returns `NONE`. -/
def Obligations.SimultaneousPutAndGet : Prop :=
  ∀ (q : Buf) (b : Byte) (s : State), s.Inv →
    (∀ x rest, bufContent s q = x :: rest → (s.ring q).cnt = capacity s.cfg q →
      (∃ t u, exec (.rbGet q) s = .next t ∧ t.resp.internal = some (.byte (some x)) ∧
        exec (.rbPut q b) t = .next u ∧ u.resp.internal = some (.ok true) ∧
        bufContent u q = rest ++ [b]) ∧
      (∃ t u, exec (.rbPut q b) s = .next t ∧ t.resp.internal = some (.ok false) ∧
        exec (.rbGet q) t = .next u ∧ u.resp.internal = some (.byte (some x)) ∧
        bufContent u q = rest)) ∧
    ((s.ring q).cnt = 0 →
      (∃ t u, exec (.rbPut q b) s = .next t ∧ t.resp.internal = some (.ok true) ∧
        exec (.rbGet q) t = .next u ∧ u.resp.internal = some (.byte (some b)) ∧
        bufContent u q = []) ∧
      (∃ t u, exec (.rbGet q) s = .next t ∧ t.resp.internal = some (.byte none) ∧
        exec (.rbPut q b) t = .next u ∧ u.resp.internal = some (.ok true) ∧
        bufContent u q = [b]))

/-! ### DEC_STEP -/

/-- `EMPTY` (R130): with no byte in `rx` no state at all changes; from every state. -/
def Obligations.DecStepOnEmptyChangesNothing : Prop :=
  ∀ s : State, s.rx.cnt = 0 →
    exec .decStep s =
      .next { s with resp := { s.resp with internal := some (.dec .empty) } }

/-- Phase `WAIT_STX` (R131, R132). -/
def Obligations.DecStepWaitStx : Prop :=
  ∀ (s : State) (b : Byte), s.Inv → s.dec.phase = .waitStx → s.rx.cnt ≠ 0 →
    s.rx.mem.read s.rx.rd = b →
    (b = s.cfg.stx →
      exec .decStep s = .next
        { s with
          rx := { s.rx with rd := (s.rx.rd + 1) % s.cfg.nRx, cnt := s.rx.cnt - 1 }
          dec := { s.dec with acc := 0x00, phase := .awaitLen }
          resp := { s.resp with internal := some (.dec .consumed) } }) ∧
    (b ≠ s.cfg.stx →
      exec .decStep s = .next
        { s with
          rx := { s.rx with rd := (s.rx.rd + 1) % s.cfg.nRx, cnt := s.rx.cnt - 1 }
          stats := { s.stats with bytesDropped := satInc s.cfg s.stats.bytesDropped }
          resp := { s.resp with internal := some (.dec .consumed) } })

/-- Phase `AWAIT_LEN` (R133; R134, whose count of exactly 1 is D8). -/
def Obligations.DecStepAwaitLen : Prop :=
  ∀ (s : State) (b : Byte), s.Inv → s.dec.phase = .awaitLen → s.rx.cnt ≠ 0 →
    s.rx.mem.read s.rx.rd = b →
    (b.toNat ≤ s.cfg.maxPayload →
      exec .decStep s = .next
        { s with
          rx := { s.rx with rd := (s.rx.rd + 1) % s.cfg.nRx, cnt := s.rx.cnt - 1 }
          dec := { s.dec with len := b, acc := b, phase := .awaitCmd }
          resp := { s.resp with internal := some (.dec .consumed) } }) ∧
    (s.cfg.maxPayload < b.toNat →
      exec .decStep s = .next
        { s with
          rx := { s.rx with rd := (s.rx.rd + 1) % s.cfg.nRx, cnt := s.rx.cnt - 1 }
          dec := { s.dec with phase := .waitStx }
          stats := { s.stats with bytesDropped := satInc s.cfg s.stats.bytesDropped }
          resp := { s.resp with internal := some (.dec .consumed) } })

/-- Phase `AWAIT_CMD` (R135, R136; where `dec.idx` is cleared is D20). For `LEN = 0` the accumulator becomes the
command byte. -/
def Obligations.DecStepAwaitCmd : Prop :=
  ∀ (s : State) (b : Byte), s.Inv → s.dec.phase = .awaitCmd → s.rx.cnt ≠ 0 →
    s.rx.mem.read s.rx.rd = b →
    (0 < s.dec.len.toNat →
      exec .decStep s = .next
        { s with
          rx := { s.rx with rd := (s.rx.rd + 1) % s.cfg.nRx, cnt := s.rx.cnt - 1 }
          dec := { s.dec with cmd := b, acc := s.dec.acc ^^^ b, idx := 0, phase := .awaitPayload }
          resp := { s.resp with internal := some (.dec .consumed) } }) ∧
    (s.dec.len = 0x00 →
      exec .decStep s = .next
        { s with
          rx := { s.rx with rd := (s.rx.rd + 1) % s.cfg.nRx, cnt := s.rx.cnt - 1 }
          dec := { s.dec with cmd := b, acc := b, idx := 0, phase := .awaitCrc }
          resp := { s.resp with internal := some (.dec .consumed) } })

/-- Phase `AWAIT_PAYLOAD` (R138, R139): the byte is stored at `dec.idx`, an index inside the scratch buffer, and no
other scratch byte changes. -/
def Obligations.DecStepAwaitPayload : Prop :=
  ∀ (s : State) (b : Byte), s.Inv → s.dec.phase = .awaitPayload → s.rx.cnt ≠ 0 →
    s.rx.mem.read s.rx.rd = b → ∃ m : Memory,
      m.read s.dec.idx = b ∧ s.dec.idx < s.cfg.maxPayload ∧
      (∀ a, a ≠ s.dec.idx → m.read a = s.dec.buf.read a) ∧
      (s.dec.idx + 1 < s.dec.len.toNat →
        exec .decStep s = .next
          { s with
            rx := { s.rx with rd := (s.rx.rd + 1) % s.cfg.nRx, cnt := s.rx.cnt - 1 }
            dec := { s.dec with buf := m, acc := s.dec.acc ^^^ b, idx := s.dec.idx + 1 }
            resp := { s.resp with internal := some (.dec .consumed) } }) ∧
      (s.dec.idx + 1 = s.dec.len.toNat →
        exec .decStep s = .next
          { s with
            rx := { s.rx with rd := (s.rx.rd + 1) % s.cfg.nRx, cnt := s.rx.cnt - 1 }
            dec := { s.dec with
              buf := m, acc := s.dec.acc ^^^ b, idx := s.dec.idx + 1, phase := .awaitCrc }
            resp := { s.resp with internal := some (.dec .consumed) } })

/-- Phase `AWAIT_CRC`, checksum match (R141): the frame has the collected command, length and payload, the payload
being the first `dec.len` scratch bytes; no counter changes. -/
def Obligations.DecStepAwaitCrcMatch : Prop :=
  ∀ s : State, s.Inv → s.dec.phase = .awaitCrc → s.rx.cnt ≠ 0 →
    s.rx.mem.read s.rx.rd = s.dec.acc → ∃ payload : List Byte,
      payload.length = s.dec.len.toNat ∧ payload.length ≤ s.cfg.maxPayload ∧
      (∀ i < s.dec.len.toNat, payload[i]? = some (s.dec.buf.read i)) ∧
      exec .decStep s = .next
        { s with
          rx := { s.rx with rd := (s.rx.rd + 1) % s.cfg.nRx, cnt := s.rx.cnt - 1 }
          dec := { s.dec with phase := .waitStx }
          resp := { s.resp with
            internal := some (.dec (.frame
              { command := s.dec.cmd, length := s.dec.len, payload := payload })) } }

/-- Phase `AWAIT_CRC`, checksum mismatch (R140; that `bytes_dropped` does not change is D9). -/
def Obligations.DecStepAwaitCrcMismatch : Prop :=
  ∀ (s : State) (b : Byte), s.Inv → s.dec.phase = .awaitCrc → s.rx.cnt ≠ 0 →
    s.rx.mem.read s.rx.rd = b → b ≠ s.dec.acc →
    exec .decStep s = .next
      { s with
        rx := { s.rx with rd := (s.rx.rd + 1) % s.cfg.nRx, cnt := s.rx.cnt - 1 }
        dec := { s.dec with phase := .waitStx }
        stats := { s.stats with checksumErrors := satInc s.cfg s.stats.checksumErrors }
        resp := { s.resp with internal := some (.dec .consumed) } }

/-! ### POLL -/

/-- R150: polling an empty RX buffer, in any decoder phase, changes nothing and returns `NONE` (in every turn that
lets the one `DEC_STEP` happen). -/
def Obligations.PollOnEmptyChangesNothing : Prop :=
  ∀ s : State, s.rx.cnt = 0 → turnLimit s.turn ≠ some 0 →
    exec .poll s =
      .next { s with host := .idle, resp := { s.resp with host := some (.frame none) } }

/-- `POLL` uninterrupted (R146, R147, R148; that an error does not end it is D10): it always returns, with `NONE` and
an empty `rx`, or with a frame and the decoder in `WAIT_STX`; it takes bytes from the front of `rx` only, writes no
storage but the scratch buffer, and touches neither `tx` nor any other agent's state. -/
def Obligations.PollReturnsFrameOrDrains : Prop :=
  ∀ s : State, s.Inv → turnLimit s.turn = none →
    ∃ (r : Ring) (d : Decoder) (c : Stats) (f : Option Frame),
      exec .poll s = .next
        { s with rx := r, dec := d, stats := c, host := .idle,
                 resp := { s.resp with host := some (.frame f) } } ∧
      (f = none → r.cnt = 0) ∧
      (∀ g, f = some g → d.phase = .waitStx ∧ g.payload.length = g.length.toNat ∧
        g.payload.length ≤ s.cfg.maxPayload) ∧
      (∃ taken, rxContent s = taken ++ content s.cfg.nRx r) ∧
      r.mem = s.rx.mem ∧ r.wr = s.rx.wr ∧
      (∀ a, s.cfg.maxPayload ≤ a → d.buf.read a = s.dec.buf.read a) ∧
      s.stats.bytesDropped ≤ c.bytesDropped ∧ s.stats.checksumErrors ≤ c.checksumErrors

/-- A valid frame at the head of `rx`, the decoder in `WAIT_STX`: `POLL` returns that frame, leaves the bytes behind
its `CRC` untouched, and changes no counter (R147, R78). -/
def Obligations.PollReturnsFirstFrame : Prop :=
  ∀ (s : State) (cmd : Byte) (payload rest : List Byte),
    s.Inv → turnLimit s.turn = none → s.dec.phase = .waitStx →
    payload.length ≤ s.cfg.maxPayload → rxContent s = wireBytes s.cfg cmd payload ++ rest →
    ∃ (r : Ring) (d : Decoder),
      exec .poll s = .next
        { s with rx := r, dec := d, host := .idle,
                 resp := { s.resp with host := some (.frame (some
                   { command := cmd, length := lenByte payload, payload := payload })) } } ∧
      content s.cfg.nRx r = rest ∧ d.phase = .waitStx ∧ r.mem = s.rx.mem

/-- Soundness of a returned frame: from `WAIT_STX`, the last bytes that a `POLL` consumed before it returned `f` are
exactly the valid wire frame of `f` (R40, R78, R141, R142). -/
def Obligations.PolledFrameWasOnTheWire : Prop :=
  ∀ (s t : State) (f : Frame),
    s.Inv → turnLimit s.turn = none → s.dec.phase = .waitStx →
    exec .poll s = .next t → t.resp.host = some (.frame (some f)) →
    ∃ before, rxContent s = before ++ wireBytes s.cfg f.command f.payload ++ rxContent t ∧
      f.length = lenByte f.payload ∧ f.payload.length ≤ s.cfg.maxPayload

/-- R153: bytes none of which is `STX` are dropped and counted one by one (saturating, D11); no frame, no checksum
error, and the decoder stays as it is. -/
def Obligations.PollDropsNoise : Prop :=
  ∀ s : State, s.Inv → turnLimit s.turn = none → s.dec.phase = .waitStx →
    s.cfg.stx ∉ rxContent s →
    exec .poll s = .next
      { s with
        rx := { s.rx with rd := s.rx.wr, cnt := 0 }
        stats := { s.stats with
          bytesDropped := min (counterMax s.cfg) (s.stats.bytesDropped + s.rx.cnt) }
        host := .idle
        resp := { s.resp with host := some (.frame none) } }

/-- R204 and R148: a frame whose `CRC` byte is wrong adds exactly one checksum error (saturating) and no drop, and
the same `POLL` returns the valid frame behind it (that it goes on is D10). -/
def Obligations.PollSkipsCorruptedFrame : Prop :=
  ∀ (s : State) (cmd cmd' wrong : Byte) (payload payload' rest : List Byte),
    s.Inv → turnLimit s.turn = none → s.dec.phase = .waitStx →
    payload.length ≤ s.cfg.maxPayload → payload'.length ≤ s.cfg.maxPayload →
    wrong ≠ frameCrc cmd payload →
    rxContent s = (s.cfg.stx :: lenByte payload :: cmd :: (payload ++ [wrong])) ++
      wireBytes s.cfg cmd' payload' ++ rest →
    ∃ t, exec .poll s = .next t ∧
      t.resp.host = some (.frame (some
        { command := cmd', length := lenByte payload', payload := payload' })) ∧
      rxContent t = rest ∧
      t.stats = { s.stats with checksumErrors := satInc s.cfg s.stats.checksumErrors }

/-- R124: one inverted bit in `CMD`, a payload byte or the `CRC` of a frame is detected (a changed `LEN` changes the
length): no frame, one checksum error, saturating (D11), and no drop (D9). -/
def Obligations.FlippedBitDetected : Prop :=
  ∀ (s : State) (cmd : Byte) (payload : List Byte) (j i : Nat),
    s.Inv → turnLimit s.turn = none → s.dec.phase = .waitStx →
    payload.length ≤ s.cfg.maxPayload → j < payload.length + 2 → i < 8 →
    rxContent s = s.cfg.stx :: lenByte payload ::
      (cmd :: (payload ++ [frameCrc cmd payload])).modify j (fun b => b ^^^ BitVec.twoPow 8 i) →
    ∃ t, exec .poll s = .next t ∧ t.resp.host = some (.frame none) ∧ rxContent t = [] ∧
      t.stats = { s.stats with checksumErrors := satInc s.cfg s.stats.checksumErrors }

/-- R152: no `POLL` takes more than `rx.cnt + 1` `DEC_STEP`s when no push interleaves: a turn that long ends it, in
the state the uninterrupted `POLL` ends in (the length of a turn is log 5). -/
def Obligations.PollWorkBounded : Prop :=
  ∀ (s : State) (n : Nat), s.Inv → s.rx.cnt + 1 ≤ n →
    ∃ t, exec .poll { s with turn := .host (some n) } = .next t ∧ t.host = .idle ∧
      exec .poll { s with turn := .host none } = .next { t with turn := .host none }

/-- A `POLL` cut after `n` `DEC_STEP`s and gone on with in a later turn, nothing having come between, ends as the
uninterrupted `POLL` does (R61, R13; the length of a turn is log 5). -/
def Obligations.CutPollResumes : Prop :=
  ∀ (s t : State) (n : Nat) (turns : List Slot),
    s.turn = .host (some n) → exec .poll s = .next t → t.host = .polling →
    step { t with sched := .host none :: turns } =
      exec .poll { s with sched := turns, turn := .host none }

/-- The list view of R25: two blocks that differ only in where `rx` keeps the same content (its indices and its
stale bytes) return the same result, and end with the same decoder, counters and content. -/
def Obligations.PollSeesOnlyContent : Prop :=
  ∀ (s : State) (r : Ring), s.Inv → RingInv s.cfg.nRx r → turnLimit s.turn = none →
    content s.cfg.nRx r = rxContent s →
    ∃ t u, exec .poll s = .next t ∧ exec .poll { s with rx := r } = .next u ∧
      u = { t with rx := u.rx } ∧ rxContent u = rxContent t

/-- A push and a `DEC_STEP` commute when `rx` is neither empty nor full: both orders end in one state (R60, R63). -/
def Obligations.PushAndDecStepCommute : Prop :=
  ∀ (s : State) (b : Byte), s.Inv → s.rx.cnt ≠ 0 → s.rx.cnt ≠ s.cfg.nRx →
    ∃ s₁ s₂ t, exec (.rxPush b) s = .next s₁ ∧ exec .decStep s₁ = .next t ∧
      exec .decStep s = .next s₂ ∧ exec (.rxPush b) s₂ = .next t

/-- Chunk-invariance (R151): bytes that fit in `rx` give the same frames, decoder state and counters whether they are
fed at once and then polled, or in two chunks with polls between. -/
def Obligations.ChunkInvariance : Prop :=
  ∀ (s : State) (xs ys : List Byte),
    s.Inv → turnLimit s.turn = none → s.rx.cnt + xs.length + ys.length ≤ s.cfg.nRx →
    ∃ s₁ t₁ s₂ t₂ u t oks₁ oks₂ oks fs₁ fs₂,
      feedBytes xs s = .ok (oks₁, s₁) ∧ pollUntilNone (s.cfg.nRx + 1) s₁ = some (fs₁, t₁) ∧
      feedBytes ys t₁ = .ok (oks₂, s₂) ∧ pollUntilNone (s.cfg.nRx + 1) s₂ = some (fs₂, t₂) ∧
      feedBytes (xs ++ ys) s = .ok (oks, u) ∧
      pollUntilNone (s.cfg.nRx + 1) u = some (fs₁ ++ fs₂, t) ∧
      t₂.dec = t.dec ∧ t₂.stats = t.stats ∧ rxContent t₂ = [] ∧ rxContent t = []

/-! ### The encoder -/

/-- `SEND` uninterrupted, with room for the frame (R160, R161, R162; the `ok` bit is D7): the bytes
`STX, L, cmd, payload, ck` are appended to `tx` in that order, stored at the next `L + 4` indices; nothing else
changes. -/
def Obligations.SendAppendsFrame : Prop :=
  ∀ (s : State) (cmd : Byte) (payload : List Byte),
    s.Inv → turnLimit s.turn = none → payload.length ≤ s.cfg.maxPayload →
    s.tx.cnt + payload.length + 4 ≤ s.cfg.nTx →
    ∃ r : Ring,
      exec (.send cmd payload) s = .next
        { s with tx := r, host := .idle, resp := { s.resp with host := some (.ok true) } } ∧
      content s.cfg.nTx r = txContent s ++
        ([s.cfg.stx, lenByte payload, cmd] ++ payload ++
          [xorFold ([lenByte payload, cmd] ++ payload)]) ∧
      (lenByte payload).toNat = payload.length ∧
      r.rd = s.tx.rd ∧ r.cnt = s.tx.cnt + payload.length + 4 ∧
      r.wr = (s.tx.wr + (payload.length + 4)) % s.cfg.nTx ∧
      (∀ a, (∀ j < payload.length + 4, a ≠ (s.tx.wr + j) % s.cfg.nTx) →
        r.mem.read a = s.tx.mem.read a)

/-- `SEND` into too little room (R164; stopping at the first refused put is D7): the strict prefix of the frame that
fits stays in `tx`, the rest is never put, `ok = 0`, and no counter changes. -/
def Obligations.SendTruncatesOnFullBuffer : Prop :=
  ∀ (s : State) (cmd : Byte) (payload : List Byte),
    s.Inv → turnLimit s.turn = none → payload.length ≤ s.cfg.maxPayload →
    s.cfg.nTx < s.tx.cnt + payload.length + 4 →
    ∃ r : Ring,
      exec (.send cmd payload) s = .next
        { s with tx := r, host := .idle, resp := { s.resp with host := some (.ok false) } } ∧
      content s.cfg.nTx r =
        txContent s ++ (wireBytes s.cfg cmd payload).take (s.cfg.nTx - s.tx.cnt) ∧
      r.rd = s.tx.rd ∧ r.cnt = s.cfg.nTx ∧
      (s.tx.cnt = s.cfg.nTx → r = s.tx) ∧
      (∀ a, (∀ j < s.cfg.nTx - s.tx.cnt, a ≠ (s.tx.wr + j) % s.cfg.nTx) →
        r.mem.read a = s.tx.mem.read a)

/-- `SEND_ACK` (R166): it is `SEND OP_ACK, []` in every state, and with room it puts the four bytes `STX`, 0x00,
`OP_ACK`, `OP_ACK`. -/
def Obligations.SendAckIsZeroPayloadFrame : Prop :=
  (∀ s : State, exec .sendAck s = exec (.send s.cfg.opAck []) s) ∧
  (∀ s : State, s.Inv → turnLimit s.turn = none → s.tx.cnt + 4 ≤ s.cfg.nTx →
    ∃ r : Ring,
      exec .sendAck s = .next
        { s with tx := r, host := .idle, resp := { s.resp with host := some (.ok true) } } ∧
      content s.cfg.nTx r = txContent s ++ [s.cfg.stx, 0x00, s.cfg.opAck, s.cfg.opAck])

/-- `SEND_NACK r` (R167; that any byte is accepted is D21): it is `SEND OP_NACK, [r]` in every state, and with room it
puts the five bytes `STX`, 0x01, `OP_NACK`, `r`, `0x01 xor OP_NACK xor r`. -/
def Obligations.SendNackCarriesReason : Prop :=
  (∀ (s : State) (r : Byte), exec (.sendNack r) s = exec (.send s.cfg.opNack [r]) s) ∧
  (∀ (s : State) (r : Byte), s.Inv → turnLimit s.turn = none → 1 ≤ s.cfg.maxPayload →
    s.tx.cnt + 5 ≤ s.cfg.nTx →
    ∃ q : Ring,
      exec (.sendNack r) s = .next
        { s with tx := q, host := .idle, resp := { s.resp with host := some (.ok true) } } ∧
      content s.cfg.nTx q = txContent s ++
        [s.cfg.stx, 0x01, s.cfg.opNack, r, 0x01 ^^^ s.cfg.opNack ^^^ r])

/-- A `SEND` cut after some puts and gone on with in a later turn, nothing having come between, ends as the
uninterrupted `SEND` does (R61, R13; the length of a turn is log 5). -/
def Obligations.CutSendResumes : Prop :=
  ∀ (s t : State) (n : Nat) (cmd : Byte) (payload left : List Byte) (turns : List Slot),
    s.turn = .host (some n) → exec (.send cmd payload) s = .next t → t.host = .sending left →
    step { t with sched := .host none :: turns } =
      exec (.send cmd payload) { s with sched := turns, turn := .host none }

/-- `SEND` cut short: a turn of `n` puts, fewer than the frame has and all accepted, leaves exactly the first `n` bytes
in `tx` and the rest in progress, with nothing presented (R42, R60, R61; the length of a turn is log 5). -/
def Obligations.CutSendHasPutItsFirstBytes : Prop :=
  ∀ (s : State) (cmd : Byte) (payload : List Byte) (n : Nat),
    s.Inv → s.turn = .host (some n) → payload.length ≤ s.cfg.maxPayload →
    n < payload.length + 4 → s.tx.cnt + n ≤ s.cfg.nTx →
    ∃ r : Ring,
      exec (.send cmd payload) s = .next
        { s with tx := r, host := .sending ((wireBytes s.cfg cmd payload).drop n),
                 resp := { s.resp with host := none } } ∧
      content s.cfg.nTx r = txContent s ++ (wireBytes s.cfg cmd payload).take n

/-- The round trip of R168: a frame sent by one block, popped from its `tx` and pushed into the `rx` of another that
waits for `STX`, is returned by that block's `POLL`, and neither counter changes. -/
def Obligations.SendThenPollRoundTrip : Prop :=
  ∀ (s r : State) (cmd : Byte) (payload : List Byte),
    s.Inv → r.Inv → turnLimit s.turn = none → turnLimit r.turn = none →
    s.tx.cnt = 0 → r.rx.cnt = 0 → r.dec.phase = .waitStx → r.cfg.stx = s.cfg.stx →
    payload.length ≤ s.cfg.maxPayload → payload.length ≤ r.cfg.maxPayload →
    payload.length + 4 ≤ s.cfg.nTx → payload.length + 4 ≤ r.cfg.nRx →
    ∃ t bytes t' r' u, exec (.send cmd payload) s = .next t ∧
      t.resp.host = some (.ok true) ∧
      txDrain (payload.length + 5) t = some (bytes, t') ∧
      feedBytes bytes r = .ok (List.replicate (payload.length + 4) true, r') ∧
      exec .poll r' = .next u ∧
      u.resp.host = some (.frame (some
        { command := cmd, length := lenByte payload, payload := payload })) ∧
      u.stats = r.stats

/-! ### The ports -/

/-- `RX_PUSH` (R176; counting the refused byte is D6): a full `rx` refuses and counts; otherwise the byte is stored at
the write index and becomes the newest. The decoder is not touched. -/
def Obligations.RxPushAppendsOrCounts : Prop :=
  ∀ (b : Byte) (s : State), s.Inv →
    (s.rx.cnt = s.cfg.nRx →
      exec (.rxPush b) s = .next
        { s with
          stats := { s.stats with bytesDropped := satInc s.cfg s.stats.bytesDropped }
          resp := { s.resp with rxin := some (.ok false) } }) ∧
    (s.rx.cnt < s.cfg.nRx → ∃ r : Ring,
      exec (.rxPush b) s = .next
        { s with rx := r, resp := { s.resp with rxin := some (.ok true) } } ∧
      content s.cfg.nRx r = rxContent s ++ [b] ∧
      r.rd = s.rx.rd ∧ r.wr = (s.rx.wr + 1) % s.cfg.nRx ∧ r.cnt = s.rx.cnt + 1 ∧
      r.mem.read s.rx.wr = b ∧
      (∀ a, a ≠ s.rx.wr → r.mem.read a = s.rx.mem.read a))

/-- `RX_COUNT` and `TX_COUNT` (R178, R181; the ports are D23, and that HOST may issue `TX_COUNT` is log 8): the number
of buffered bytes, a pure read. -/
def Obligations.CountsArePureReads : Prop :=
  ∀ s : State, s.Inv →
    exec .rxCount s = .next
      { s with resp := { s.resp with rxin := some (.count (rxContent s).length) } } ∧
    (countPort s.turn = .txout →
      exec .txCount s = .next
        { s with resp := { s.resp with txout := some (.count (txContent s).length) } }) ∧
    (countPort s.turn = .host →
      exec .txCount s = .next
        { s with resp := { s.resp with host := some (.count (txContent s).length) } })

/-- `TX_POP` (R179): `NONE` and no change on an empty `tx`; otherwise the oldest byte, which is removed; no counter and
no storage cell changes. -/
def Obligations.TxPopReturnsOldest : Prop :=
  ∀ s : State, s.Inv →
    (s.tx.cnt = 0 →
      exec .txPop s = .next { s with resp := { s.resp with txout := some (.byte none) } }) ∧
    (∀ b rest, txContent s = b :: rest → ∃ r : Ring,
      exec .txPop s = .next
        { s with tx := r, resp := { s.resp with txout := some (.byte (some b)) } } ∧
      r = { s.tx with rd := (s.tx.rd + 1) % s.cfg.nTx, cnt := s.tx.cnt - 1 } ∧
      content s.cfg.nTx r = rest)

/-- Bytes leave `tx` in exactly the order they were accepted (R57, R180): draining it returns its content and leaves
it empty. -/
def Obligations.TxDrainReturnsContent : Prop :=
  ∀ s : State, s.Inv → ∃ t,
    txDrain (s.tx.cnt + 1) s = some (txContent s, t) ∧ txContent t = [] ∧
    t = { s with tx := t.tx, resp := t.resp } ∧ t.tx.mem = s.tx.mem

/-- `STATS` (R182): both counters from the same instant; no state changes, in particular neither counter. -/
def Obligations.StatsIsAPureSnapshot : Prop :=
  ∀ s : State, exec .stats s = .next
    { s with resp := { s.resp with
        host := some (.stats s.stats.bytesDropped s.stats.checksumErrors) } }

/-- The arrival of a wire frame (the model's choice, log 9; R8, R54, R71, R176): the bytes that fit are appended to
`rx` in wire order, the others are refused and counted one by one. -/
def Obligations.WireFrameArrives : Prop :=
  ∀ (s : State) (i : Instr) (cmd : Byte) (payload : List Byte),
    s.Inv → payload.length ≤ s.cfg.maxPayload →
    (i = .frame cmd payload ∨ (i = .frameAck ∧ cmd = s.cfg.opAck ∧ payload = []) ∨
      (∃ r, i = .frameNack r ∧ cmd = s.cfg.opNack ∧ payload = [r])) →
    ∃ (r : Ring) (k : Nat), k = min (payload.length + 4) (s.cfg.nRx - s.rx.cnt) ∧
      exec i s = .next
        { s with
          rx := r
          stats := { s.stats with
            bytesDropped :=
              min (counterMax s.cfg) (s.stats.bytesDropped + (payload.length + 4 - k)) }
          resp := { s.resp with rxin := some (.oks
            (List.replicate k true ++ List.replicate (payload.length + 4 - k) false)) } } ∧
      content s.cfg.nRx r = rxContent s ++ (wireBytes s.cfg cmd payload).take k ∧
      r.rd = s.rx.rd ∧
      (∀ a, (∀ j < k, a ≠ (s.rx.wr + j) % s.cfg.nRx) → r.mem.read a = s.rx.mem.read a)

/-- A wire frame that arrives whole at a block waiting for `STX` is the `Frame` of its row when decoded (the table's
result column; R78, R81; log 9). -/
def Obligations.ArrivedFrameIsPolled : Prop :=
  ∀ (s : State) (i : Instr) (cmd : Byte) (payload : List Byte),
    s.Inv → turnLimit s.turn = none → s.dec.phase = .waitStx → s.rx.cnt = 0 →
    payload.length ≤ s.cfg.maxPayload → payload.length + 4 ≤ s.cfg.nRx →
    (i = .frame cmd payload ∨ (i = .frameAck ∧ cmd = s.cfg.opAck ∧ payload = []) ∨
      (∃ r, i = .frameNack r ∧ cmd = s.cfg.opNack ∧ payload = [r])) →
    ∃ t u, exec i s = .next t ∧ exec .poll t = .next u ∧
      u.resp.host = some (.frame (some
        { command := cmd, length := lenByte payload, payload := payload })) ∧
      rxContent u = [] ∧ u.stats = s.stats

/-! ### Reset -/

/-- `RESET` from any state (R230, R231; the values are D4 and D12; what it leaves to the agents is log 10). -/
def Obligations.ResetFromAnyState : Prop :=
  ∀ s : State, exec .reset s = .next
    { s with
      rx := { rd := 0, wr := 0, cnt := 0, mem := s.rx.mem }
      tx := { rd := 0, wr := 0, cnt := 0, mem := s.tx.mem }
      dec := { phase := .waitStx, len := 0x00, cmd := 0x00, idx := 0, acc := 0x00,
               buf := s.dec.buf }
      stats := { bytesDropped := 0, checksumErrors := 0 }
      host := .idle }

/-- After a `RESET` from any state of a legal block whose storage arrays are in form, the invariants hold, and the
operations answer as R230's example says (R233). -/
def Obligations.ResetEstablishesInvariant : Prop :=
  ∀ s : State, s.cfg.Legal → StorageInv s.cfg.nRx s.rx.mem → StorageInv s.cfg.nTx s.tx.mem →
    StorageInv s.cfg.maxPayload s.dec.buf → turnLimit s.turn = none →
    ∃ t a b c d e, exec .reset s = .next t ∧ t.Inv ∧
      exec .stats t = .next a ∧ a.resp.host = some (.stats 0 0) ∧
      exec .rxCount t = .next b ∧ b.resp.rxin = some (.count 0) ∧
      exec .txCount { t with turn := .txout } = .next c ∧ c.resp.txout = some (.count 0) ∧
      exec .poll t = .next d ∧ d.resp.host = some (.frame none) ∧
      exec .txPop t = .next e ∧ e.resp.txout = some (.byte none)

/-- The state after power-on and RESET of every legal configuration meets the invariants, whatever bytes the three
storage arrays power on with (R28, R35, R45), and `CFG_REF` is legal (R9). `State.reset` is one of these states, by the
model's choice of log 1 and log 2. -/
def Obligations.ResetStateMeetsInvariant : Prop :=
  (∀ (c : Config) (rxMem txMem decBuf : Memory), c.Legal →
    StorageInv c.nRx rxMem → StorageInv c.nTx txMem → StorageInv c.maxPayload decBuf →
    (State.powerOn c rxMem txMem decBuf).Inv ∧ HostInv (State.powerOn c rxMem txMem decBuf)) ∧
  State.reset = State.powerOn Config.ref [] [] [] ∧ Config.ref.Legal

/-! ### The machine -/

/-- Every instruction keeps the invariant of the block: R24 on both buffers, R31, R33, R34 on the decoder, the width of
R38 on the counters, the canonical form of the three storage arrays. -/
def Obligations.ExecKeepsInvariant : Prop :=
  ∀ (i : Instr) (s t : State), s.Inv → exec i s = .next t → t.Inv

/-- Every step keeps the invariants, from every state that meets them. -/
def Obligations.StepKeepsInvariants : Prop :=
  ∀ s t : State, s.Inv → HostInv s → step s = .next t → t.Inv ∧ HostInv t

/-- No operation and no step faults (R200): "Every operation is defined in every reachable state". In particular the
declared length never makes the decoder write past its scratch buffer (R137); the one fault is log 3. -/
def Obligations.NothingFaults : Prop :=
  (∀ (i : Instr) (s : State), s.Inv → notFault (exec i s) = true) ∧
  (∀ s : State, s.Inv → notFault (step s) = true)

/-- A step runs the decoded instruction: the turn is taken off the list, the command word off the port (R60, R87; the
list of turns and the port queues are log 4, `TX_COUNT` on HOST is log 8). -/
def Obligations.StepRunsDecodedCommand : Prop :=
  ∀ (s : State) (slot : Slot) (turns : List Slot) (p : Port) (i : Instr) (rest : List Byte),
    s.sched = slot :: turns →
    ((slot = .rxin ∧ p = .rxin) ∨ (slot = .txout ∧ p = .txout) ∨
      ((∃ limit, slot = .host limit) ∧ p = .host ∧ s.host = .idle)) →
    decode (s.queue p) = .ok (i, rest) → allowedAt p i = true →
    step s = exec i (({ s with sched := turns, turn := slot }).setQueue p rest)

/-- The other steps: RESET runs in its turn; a composite in progress goes on in a HOST turn and no new command is
taken; an agent with nothing issued, and an empty list of turns, leave the block as it is (R61, R220, R231; the list of
turns and the port queues are log 4, a turn's length is log 5). -/
def Obligations.StepWithoutACommand : Prop :=
  ∀ (s : State) (turns : List Slot) (limit : Option Nat),
    (s.sched = .reset :: turns → step s = exec .reset { s with sched := turns, turn := .reset }) ∧
    (s.sched = .host limit :: turns → s.host = .polling →
      step s = resumePoll { s with sched := turns, turn := .host limit }) ∧
    (∀ left, s.sched = .host limit :: turns → s.host = .sending left →
      step s = resumeSend left { s with sched := turns, turn := .host limit }) ∧
    (s.sched = .rxin :: turns → s.rxinQ = [] →
      step s = .next { s with sched := turns, turn := .rxin }) ∧
    (s.sched = .txout :: turns → s.txoutQ = [] →
      step s = .next { s with sched := turns, turn := .txout }) ∧
    (s.sched = .host limit :: turns → s.host = .idle → s.hostQ = [] →
      step s = .next { s with sched := turns, turn := .host limit }) ∧
    (s.sched = [] → step s = .next s)

/-- R183: between two `RESET`s no counter ever decreases. -/
def Obligations.CountersNeverDecrease : Prop :=
  ∀ s t : State, step s = .next t → (∀ turns, s.sched ≠ .reset :: turns) →
    s.stats.bytesDropped ≤ t.stats.bytesDropped ∧
    s.stats.checksumErrors ≤ t.stats.checksumErrors

/-- Who writes what, the W entries of R21's table (with the wire-frame rows of log 9 beside `RX_PUSH`): a register that
an instruction changes is one the table lets it write; no instruction changes the parameters. -/
def Obligations.OnlyTheirWritersChangeRegisters : Prop :=
  ∀ (i : Instr) (s t : State), exec i s = .next t →
    t.cfg = s.cfg ∧
    (t.rx.rd = s.rx.rd ∨ i = .reset ∨ i = .rbInit .rx ∨ i = .rbGet .rx ∨ i = .decStep ∨ i = .poll) ∧
    (t.rx.wr = s.rx.wr ∨ i = .reset ∨ i = .rbInit .rx ∨ (∃ b, i = .rbPut .rx b) ∨
      (∃ b, i = .rxPush b) ∨ (∃ c p, i = .frame c p) ∨ i = .frameAck ∨ (∃ r, i = .frameNack r)) ∧
    (t.rx.mem = s.rx.mem ∨ (∃ b, i = .rbPut .rx b) ∨ (∃ b, i = .rxPush b) ∨
      (∃ c p, i = .frame c p) ∨ i = .frameAck ∨ (∃ r, i = .frameNack r)) ∧
    (t.rx.cnt = s.rx.cnt ∨ i = .reset ∨ i = .rbInit .rx ∨ (∃ b, i = .rbPut .rx b) ∨ i = .rbGet .rx ∨
      i = .decStep ∨ i = .poll ∨ (∃ b, i = .rxPush b) ∨ (∃ c p, i = .frame c p) ∨ i = .frameAck ∨
      (∃ r, i = .frameNack r)) ∧
    (t.tx.cnt = s.tx.cnt ∨ i = .reset ∨ i = .rbInit .tx ∨ (∃ b, i = .rbPut .tx b) ∨ i = .rbGet .tx ∨
      i = .txPop ∨ (∃ c p, i = .send c p) ∨ i = .sendAck ∨ (∃ r, i = .sendNack r)) ∧
    (t.tx.rd = s.tx.rd ∨ i = .reset ∨ i = .rbInit .tx ∨ i = .rbGet .tx ∨ i = .txPop) ∧
    (t.tx.wr = s.tx.wr ∨ i = .reset ∨ i = .rbInit .tx ∨ (∃ b, i = .rbPut .tx b) ∨
      (∃ c p, i = .send c p) ∨ i = .sendAck ∨ (∃ r, i = .sendNack r)) ∧
    (t.tx.mem = s.tx.mem ∨ (∃ b, i = .rbPut .tx b) ∨
      (∃ c p, i = .send c p) ∨ i = .sendAck ∨ (∃ r, i = .sendNack r)) ∧
    (t.dec = s.dec ∨ i = .reset ∨ i = .decStep ∨ i = .poll) ∧
    (t.dec.buf = s.dec.buf ∨ i = .decStep ∨ i = .poll) ∧
    (t.stats.bytesDropped = s.stats.bytesDropped ∨ i = .reset ∨ i = .decStep ∨ i = .poll ∨
      (∃ b, i = .rxPush b) ∨ (∃ c p, i = .frame c p) ∨ i = .frameAck ∨ (∃ r, i = .frameNack r)) ∧
    (t.stats.checksumErrors = s.stats.checksumErrors ∨ i = .reset ∨ i = .decStep ∨ i = .poll)

/-- Access by port (R62, R215, R218): a turn of RXIN changes nothing but `rx` (as a producer), `bytes_dropped` and its
own port; a turn of TXOUT nothing but `tx` (as a consumer) and its own port; a turn of HOST neither puts into `rx` nor
gets from `tx`, and leaves the other ports alone (the port queues and the results are log 4 and log 6). -/
def Obligations.PortsAreSeparate : Prop :=
  ∀ (s t : State) (turns : List Slot), step s = .next t →
    (s.sched = .rxin :: turns →
      t.tx = s.tx ∧ t.dec = s.dec ∧ t.rx.rd = s.rx.rd ∧
      t.stats.checksumErrors = s.stats.checksumErrors ∧ t.host = s.host ∧
      t.hostQ = s.hostQ ∧ t.txoutQ = s.txoutQ ∧
      t.resp.host = s.resp.host ∧ t.resp.txout = s.resp.txout) ∧
    (s.sched = .txout :: turns →
      t.rx = s.rx ∧ t.dec = s.dec ∧ t.stats = s.stats ∧ t.tx.wr = s.tx.wr ∧ t.tx.mem = s.tx.mem ∧
      t.host = s.host ∧ t.hostQ = s.hostQ ∧ t.rxinQ = s.rxinQ ∧
      t.resp.host = s.resp.host ∧ t.resp.rxin = s.resp.rxin) ∧
    (∀ limit, s.sched = .host limit :: turns →
      t.rx.wr = s.rx.wr ∧ t.rx.mem = s.rx.mem ∧ t.rx.cnt ≤ s.rx.cnt ∧
      t.tx.rd = s.tx.rd ∧ s.tx.cnt ≤ t.tx.cnt ∧
      t.rxinQ = s.rxinQ ∧ t.txoutQ = s.txoutQ ∧
      t.resp.rxin = s.resp.rxin ∧ t.resp.txout = s.resp.txout)

/-- R43 over all instructions and steps: two states that differ only in where a buffer keeps its content, in the stale
bytes around it and in the scratch bytes not collected for a frame in progress answer alike, with the same results, and
go on differing only there. Power-on states that differ in their storage bytes are two such states, so the bytes that
the model names for them (log 2) never reach a port. -/
def Obligations.UnwrittenBytesAreUnobservable : Prop :=
  (∀ (i : Instr) (s t : State), s.Inv → t.Inv → SameView s t →
    (∀ s', exec i s = .next s' → ∃ t', exec i t = .next t' ∧ SameView s' t') ∧
    (∀ r, exec i s = .refused r → exec i t = .refused r)) ∧
  (∀ s t : State, s.Inv → t.Inv → SameView s t →
    (∀ s', step s = .next s' → ∃ t', step t = .next t' ∧ SameView s' t') ∧
    (∀ r, step s = .refused r → step t = .refused r)) ∧
  (∀ (c : Config) (rxMem txMem decBuf rxMem' txMem' decBuf' : Memory),
    SameView (State.powerOn c rxMem txMem decBuf) (State.powerOn c rxMem' txMem' decBuf'))
end

