-- ==== Sys2Proof/Laws/State.lean ====
section
/-! SUPPORT. What each update of State does to each field: one lemma per field per update. -/

namespace Sys2Proof.Machine

variable (s : State)


/-! ### Replacing a buffer -/

@[simp] theorem setRing_cfg (q : Buf) (r : Ring) : (s.setRing q r).cfg = s.cfg := by cases q <;> rfl
@[simp] theorem setRing_dec (q : Buf) (r : Ring) : (s.setRing q r).dec = s.dec := by cases q <;> rfl
@[simp] theorem setRing_stats (q : Buf) (r : Ring) : (s.setRing q r).stats = s.stats := by cases q <;> rfl
@[simp] theorem setRing_host (q : Buf) (r : Ring) : (s.setRing q r).host = s.host := by cases q <;> rfl
@[simp] theorem setRing_resp (q : Buf) (r : Ring) : (s.setRing q r).resp = s.resp := by cases q <;> rfl
@[simp] theorem setRing_rxinQ (q : Buf) (r : Ring) : (s.setRing q r).rxinQ = s.rxinQ := by cases q <;> rfl
@[simp] theorem setRing_hostQ (q : Buf) (r : Ring) : (s.setRing q r).hostQ = s.hostQ := by cases q <;> rfl
@[simp] theorem setRing_txoutQ (q : Buf) (r : Ring) : (s.setRing q r).txoutQ = s.txoutQ := by cases q <;> rfl
@[simp] theorem setRing_sched (q : Buf) (r : Ring) : (s.setRing q r).sched = s.sched := by cases q <;> rfl
@[simp] theorem setRing_turn (q : Buf) (r : Ring) : (s.setRing q r).turn = s.turn := by cases q <;> rfl
@[simp] theorem setRing_rx_rx (r : Ring) : (s.setRing .rx r).rx = r := rfl
@[simp] theorem setRing_rx_tx (r : Ring) : (s.setRing .rx r).tx = s.tx := rfl
@[simp] theorem setRing_tx_rx (r : Ring) : (s.setRing .tx r).rx = s.rx := rfl
@[simp] theorem setRing_tx_tx (r : Ring) : (s.setRing .tx r).tx = r := rfl
@[simp] theorem ring_setRing (q : Buf) (r : Ring) : (s.setRing q r).ring q = r := by cases q <;> rfl
@[simp] theorem setRing_ring (q : Buf) : s.setRing q (s.ring q) = s := by cases q <;> rfl
@[simp] theorem ring_rx : s.ring .rx = s.rx := rfl
@[simp] theorem ring_tx : s.ring .tx = s.tx := rfl
@[simp] theorem setRing_setRing (q : Buf) (r r' : Ring) :
    (s.setRing q r).setRing q r' = s.setRing q r' := by cases q <;> rfl

/-! ### Replacing the decoder -/

@[simp] theorem setDec_cfg (d : Decoder) : (s.setDec d).cfg = s.cfg := rfl
@[simp] theorem setDec_rx (d : Decoder) : (s.setDec d).rx = s.rx := rfl
@[simp] theorem setDec_tx (d : Decoder) : (s.setDec d).tx = s.tx := rfl
@[simp] theorem setDec_stats (d : Decoder) : (s.setDec d).stats = s.stats := rfl
@[simp] theorem setDec_host (d : Decoder) : (s.setDec d).host = s.host := rfl
@[simp] theorem setDec_resp (d : Decoder) : (s.setDec d).resp = s.resp := rfl
@[simp] theorem setDec_rxinQ (d : Decoder) : (s.setDec d).rxinQ = s.rxinQ := rfl
@[simp] theorem setDec_hostQ (d : Decoder) : (s.setDec d).hostQ = s.hostQ := rfl
@[simp] theorem setDec_txoutQ (d : Decoder) : (s.setDec d).txoutQ = s.txoutQ := rfl
@[simp] theorem setDec_sched (d : Decoder) : (s.setDec d).sched = s.sched := rfl
@[simp] theorem setDec_turn (d : Decoder) : (s.setDec d).turn = s.turn := rfl
@[simp] theorem setDec_dec (d : Decoder) : (s.setDec d).dec = d := rfl

/-! ### Counting a dropped byte -/

@[simp] theorem countDropped_cfg : (countDropped s).cfg = s.cfg := rfl
@[simp] theorem countDropped_rx : (countDropped s).rx = s.rx := rfl
@[simp] theorem countDropped_tx : (countDropped s).tx = s.tx := rfl
@[simp] theorem countDropped_dec : (countDropped s).dec = s.dec := rfl
@[simp] theorem countDropped_host : (countDropped s).host = s.host := rfl
@[simp] theorem countDropped_resp : (countDropped s).resp = s.resp := rfl
@[simp] theorem countDropped_rxinQ : (countDropped s).rxinQ = s.rxinQ := rfl
@[simp] theorem countDropped_hostQ : (countDropped s).hostQ = s.hostQ := rfl
@[simp] theorem countDropped_txoutQ : (countDropped s).txoutQ = s.txoutQ := rfl
@[simp] theorem countDropped_sched : (countDropped s).sched = s.sched := rfl
@[simp] theorem countDropped_turn : (countDropped s).turn = s.turn := rfl
@[simp] theorem countDropped_bytesDropped :
    (countDropped s).stats.bytesDropped = satInc s.cfg s.stats.bytesDropped := rfl
@[simp] theorem countDropped_checksumErrors :
    (countDropped s).stats.checksumErrors = s.stats.checksumErrors := rfl

/-! ### Counting a rejected frame -/

@[simp] theorem countChecksumError_cfg : (countChecksumError s).cfg = s.cfg := rfl
@[simp] theorem countChecksumError_rx : (countChecksumError s).rx = s.rx := rfl
@[simp] theorem countChecksumError_tx : (countChecksumError s).tx = s.tx := rfl
@[simp] theorem countChecksumError_dec : (countChecksumError s).dec = s.dec := rfl
@[simp] theorem countChecksumError_host : (countChecksumError s).host = s.host := rfl
@[simp] theorem countChecksumError_resp : (countChecksumError s).resp = s.resp := rfl
@[simp] theorem countChecksumError_rxinQ : (countChecksumError s).rxinQ = s.rxinQ := rfl
@[simp] theorem countChecksumError_hostQ : (countChecksumError s).hostQ = s.hostQ := rfl
@[simp] theorem countChecksumError_txoutQ : (countChecksumError s).txoutQ = s.txoutQ := rfl
@[simp] theorem countChecksumError_sched : (countChecksumError s).sched = s.sched := rfl
@[simp] theorem countChecksumError_turn : (countChecksumError s).turn = s.turn := rfl
@[simp] theorem countChecksumError_bytesDropped :
    (countChecksumError s).stats.bytesDropped = s.stats.bytesDropped := rfl
@[simp] theorem countChecksumError_checksumErrors :
    (countChecksumError s).stats.checksumErrors = satInc s.cfg s.stats.checksumErrors := rfl

/-! ### Presenting a result -/

@[simp] theorem present_cfg (p : Port) (r : Result) : (present p r s).cfg = s.cfg := by cases p <;> rfl
@[simp] theorem present_rx (p : Port) (r : Result) : (present p r s).rx = s.rx := by cases p <;> rfl
@[simp] theorem present_tx (p : Port) (r : Result) : (present p r s).tx = s.tx := by cases p <;> rfl
@[simp] theorem present_dec (p : Port) (r : Result) : (present p r s).dec = s.dec := by cases p <;> rfl
@[simp] theorem present_stats (p : Port) (r : Result) : (present p r s).stats = s.stats := by cases p <;> rfl
@[simp] theorem present_host (p : Port) (r : Result) : (present p r s).host = s.host := by cases p <;> rfl
@[simp] theorem present_rxinQ (p : Port) (r : Result) : (present p r s).rxinQ = s.rxinQ := by cases p <;> rfl
@[simp] theorem present_hostQ (p : Port) (r : Result) : (present p r s).hostQ = s.hostQ := by cases p <;> rfl
@[simp] theorem present_txoutQ (p : Port) (r : Result) : (present p r s).txoutQ = s.txoutQ := by cases p <;> rfl
@[simp] theorem present_sched (p : Port) (r : Result) : (present p r s).sched = s.sched := by cases p <;> rfl
@[simp] theorem present_turn (p : Port) (r : Result) : (present p r s).turn = s.turn := by cases p <;> rfl
@[simp] theorem present_rxin_resp (r : Result) :
    (present .rxin r s).resp = { s.resp with rxin := some r } := rfl
@[simp] theorem present_host_resp (r : Result) :
    (present .host r s).resp = { s.resp with host := some r } := rfl
@[simp] theorem present_txout_resp (r : Result) :
    (present .txout r s).resp = { s.resp with txout := some r } := rfl

/-! ### Returning from an internal primitive -/

@[simp] theorem giveBack_cfg (r : Option Result) : (giveBack r s).cfg = s.cfg := rfl
@[simp] theorem giveBack_rx (r : Option Result) : (giveBack r s).rx = s.rx := rfl
@[simp] theorem giveBack_tx (r : Option Result) : (giveBack r s).tx = s.tx := rfl
@[simp] theorem giveBack_dec (r : Option Result) : (giveBack r s).dec = s.dec := rfl
@[simp] theorem giveBack_stats (r : Option Result) : (giveBack r s).stats = s.stats := rfl
@[simp] theorem giveBack_host (r : Option Result) : (giveBack r s).host = s.host := rfl
@[simp] theorem giveBack_rxinQ (r : Option Result) : (giveBack r s).rxinQ = s.rxinQ := rfl
@[simp] theorem giveBack_hostQ (r : Option Result) : (giveBack r s).hostQ = s.hostQ := rfl
@[simp] theorem giveBack_txoutQ (r : Option Result) : (giveBack r s).txoutQ = s.txoutQ := rfl
@[simp] theorem giveBack_sched (r : Option Result) : (giveBack r s).sched = s.sched := rfl
@[simp] theorem giveBack_turn (r : Option Result) : (giveBack r s).turn = s.turn := rfl
@[simp] theorem giveBack_resp (r : Option Result) :
    (giveBack r s).resp = { s.resp with internal := r } := rfl

/-! ### Beginning a composite -/

@[simp] theorem beginHost_cfg (op : HostOp) : (beginHost op s).cfg = s.cfg := rfl
@[simp] theorem beginHost_rx (op : HostOp) : (beginHost op s).rx = s.rx := rfl
@[simp] theorem beginHost_tx (op : HostOp) : (beginHost op s).tx = s.tx := rfl
@[simp] theorem beginHost_dec (op : HostOp) : (beginHost op s).dec = s.dec := rfl
@[simp] theorem beginHost_stats (op : HostOp) : (beginHost op s).stats = s.stats := rfl
@[simp] theorem beginHost_rxinQ (op : HostOp) : (beginHost op s).rxinQ = s.rxinQ := rfl
@[simp] theorem beginHost_hostQ (op : HostOp) : (beginHost op s).hostQ = s.hostQ := rfl
@[simp] theorem beginHost_txoutQ (op : HostOp) : (beginHost op s).txoutQ = s.txoutQ := rfl
@[simp] theorem beginHost_sched (op : HostOp) : (beginHost op s).sched = s.sched := rfl
@[simp] theorem beginHost_turn (op : HostOp) : (beginHost op s).turn = s.turn := rfl
@[simp] theorem beginHost_host (op : HostOp) : (beginHost op s).host = op := rfl
@[simp] theorem beginHost_resp (op : HostOp) :
    (beginHost op s).resp = { s.resp with host := none } := rfl

/-! ### Cutting a composite -/

@[simp] theorem pauseHost_cfg (op : HostOp) : (pauseHost op s).cfg = s.cfg := rfl
@[simp] theorem pauseHost_rx (op : HostOp) : (pauseHost op s).rx = s.rx := rfl
@[simp] theorem pauseHost_tx (op : HostOp) : (pauseHost op s).tx = s.tx := rfl
@[simp] theorem pauseHost_dec (op : HostOp) : (pauseHost op s).dec = s.dec := rfl
@[simp] theorem pauseHost_stats (op : HostOp) : (pauseHost op s).stats = s.stats := rfl
@[simp] theorem pauseHost_resp (op : HostOp) : (pauseHost op s).resp = s.resp := rfl
@[simp] theorem pauseHost_rxinQ (op : HostOp) : (pauseHost op s).rxinQ = s.rxinQ := rfl
@[simp] theorem pauseHost_hostQ (op : HostOp) : (pauseHost op s).hostQ = s.hostQ := rfl
@[simp] theorem pauseHost_txoutQ (op : HostOp) : (pauseHost op s).txoutQ = s.txoutQ := rfl
@[simp] theorem pauseHost_sched (op : HostOp) : (pauseHost op s).sched = s.sched := rfl
@[simp] theorem pauseHost_turn (op : HostOp) : (pauseHost op s).turn = s.turn := rfl
@[simp] theorem pauseHost_host (op : HostOp) : (pauseHost op s).host = op := rfl

/-! ### Ending a composite -/

@[simp] theorem endHost_cfg (r : Result) : (endHost r s).cfg = s.cfg := rfl
@[simp] theorem endHost_rx (r : Result) : (endHost r s).rx = s.rx := rfl
@[simp] theorem endHost_tx (r : Result) : (endHost r s).tx = s.tx := rfl
@[simp] theorem endHost_dec (r : Result) : (endHost r s).dec = s.dec := rfl
@[simp] theorem endHost_stats (r : Result) : (endHost r s).stats = s.stats := rfl
@[simp] theorem endHost_rxinQ (r : Result) : (endHost r s).rxinQ = s.rxinQ := rfl
@[simp] theorem endHost_hostQ (r : Result) : (endHost r s).hostQ = s.hostQ := rfl
@[simp] theorem endHost_txoutQ (r : Result) : (endHost r s).txoutQ = s.txoutQ := rfl
@[simp] theorem endHost_sched (r : Result) : (endHost r s).sched = s.sched := rfl
@[simp] theorem endHost_turn (r : Result) : (endHost r s).turn = s.turn := rfl
@[simp] theorem endHost_host (r : Result) : (endHost r s).host = .idle := rfl
@[simp] theorem endHost_resp (r : Result) :
    (endHost r s).resp = { s.resp with host := some r } := rfl

/-! ### Replacing a port's command bytes -/

@[simp] theorem setQueue_cfg (p : Port) (bs : List Byte) : (s.setQueue p bs).cfg = s.cfg := by cases p <;> rfl
@[simp] theorem setQueue_rx (p : Port) (bs : List Byte) : (s.setQueue p bs).rx = s.rx := by cases p <;> rfl
@[simp] theorem setQueue_tx (p : Port) (bs : List Byte) : (s.setQueue p bs).tx = s.tx := by cases p <;> rfl
@[simp] theorem setQueue_dec (p : Port) (bs : List Byte) : (s.setQueue p bs).dec = s.dec := by cases p <;> rfl
@[simp] theorem setQueue_stats (p : Port) (bs : List Byte) : (s.setQueue p bs).stats = s.stats := by cases p <;> rfl
@[simp] theorem setQueue_host (p : Port) (bs : List Byte) : (s.setQueue p bs).host = s.host := by cases p <;> rfl
@[simp] theorem setQueue_resp (p : Port) (bs : List Byte) : (s.setQueue p bs).resp = s.resp := by cases p <;> rfl
@[simp] theorem setQueue_sched (p : Port) (bs : List Byte) : (s.setQueue p bs).sched = s.sched := by cases p <;> rfl
@[simp] theorem setQueue_turn (p : Port) (bs : List Byte) : (s.setQueue p bs).turn = s.turn := by cases p <;> rfl
@[simp] theorem queue_setQueue (p : Port) (bs : List Byte) : (s.setQueue p bs).queue p = bs := by
  cases p <;> rfl

end Sys2Proof.Machine
end

