-- ==== Sys2Proof/Laws/Memory.lean ====
section
/-! SUPPORT. Storage: read after write, the canonical form, and everything `load` and `store` can do. -/

namespace Sys2Proof.Machine

/-! ### Reading after writing -/

theorem Memory.wf.tail {c : Host.Cell} {m : Memory} (h : Memory.wf (c :: m)) : m.wf :=
  ⟨(List.pairwise_cons.1 h.1).2, fun d hd => h.2 d (List.mem_cons_of_mem _ hd)⟩

/-- Below the lowest listed index every byte is unlisted. -/
theorem read_below {m : Memory} {a : Nat} (hm : ∀ c ∈ m, a < c.1) : m.read a = unlistedByte := by
  induction m with
  | nil => rfl
  | cons c m ih =>
    have h1 := hm c List.mem_cons_self
    have h2 : a ≠ c.1 := by omega
    simp only [Memory.read, h2, if_false]
    exact ih fun d hd => hm d (List.mem_cons_of_mem _ hd)

theorem read_list_same {m : Memory} {a : Nat} (b : Byte) (hm : ∀ c ∈ m, a < c.1) :
    (Memory.list a b m).read a = b := by
  unfold Memory.list
  by_cases hb : b = unlistedByte
  · simp only [hb, if_true]; exact read_below hm
  · simp [hb, Memory.read]

theorem read_list_other (m : Memory) {a x : Nat} (b : Byte) (h : x ≠ a) :
    (Memory.list a b m).read x = m.read x := by
  unfold Memory.list; split <;> simp [Memory.read, h]

/-- A byte written is the byte read. -/
theorem read_write_same {m : Memory} (h : m.wf) (a : Nat) (b : Byte) : (m.write a b).read a = b := by
  induction m with
  | nil => exact read_list_same b (by simp)
  | cons c m ih =>
    have hlow := (List.pairwise_cons.1 h.1).1
    by_cases h1 : a < c.1
    · simp only [Memory.write, h1, if_true]
      refine read_list_same b fun d hd => ?_
      rcases List.mem_cons.1 hd with rfl | hd
      · exact h1
      · exact Nat.lt_trans h1 (hlow d hd)
    · by_cases h2 : a = c.1
      · simp only [Memory.write, h2, if_true, if_false, Nat.lt_irrefl]
        exact read_list_same b hlow
      · simp [Memory.write, Memory.read, h1, h2, ih h.tail]

/-- A write leaves every other byte alone. -/
theorem read_write_other (m : Memory) {a x : Nat} (b : Byte) (h : x ≠ a) :
    (m.write a b).read x = m.read x := by
  induction m with
  | nil => exact read_list_other [] b h
  | cons c m ih =>
    by_cases h1 : a < c.1
    · simp only [Memory.write, h1, if_true]; exact read_list_other _ b h
    · by_cases h2 : a = c.1
      · subst h2
        simp only [Memory.write, Nat.lt_irrefl, if_true, if_false, Memory.read, h]
        exact read_list_other _ b h
      · simp [Memory.write, Memory.read, h1, h2, ih]

/-! ### The canonical form -/

theorem mem_list {m : Memory} {a : Nat} {b : Byte} {c : Host.Cell} (h : c ∈ Memory.list a b m) :
    (c = (a, b) ∧ b ≠ unlistedByte) ∨ c ∈ m := by
  unfold Memory.list at h
  by_cases hb : b = unlistedByte
  · simp only [hb, if_true] at h; exact .inr h
  · simp only [hb, if_false] at h
    rcases List.mem_cons.1 h with h | h
    · exact .inl ⟨h, hb⟩
    · exact .inr h

theorem mem_write {m : Memory} {a : Nat} {b : Byte} {c : Host.Cell} (h : c ∈ m.write a b) :
    (c = (a, b) ∧ b ≠ unlistedByte) ∨ c ∈ m := by
  induction m with
  | nil => exact mem_list h
  | cons d m ih =>
    unfold Memory.write at h
    split at h
    · exact mem_list h
    · split at h
      · rcases mem_list h with h | h
        · exact .inl h
        · exact .inr (List.mem_cons_of_mem _ h)
      · rcases List.mem_cons.1 h with rfl | h
        · exact .inr List.mem_cons_self
        · rcases ih h with h | h
          · exact .inl h
          · exact .inr (List.mem_cons_of_mem _ h)

theorem list_wf {m : Memory} (h : m.wf) {a : Nat} (b : Byte) (hm : ∀ c ∈ m, a < c.1) :
    (Memory.list a b m).wf := by
  unfold Memory.list
  by_cases hb : b = unlistedByte
  · simp only [hb, if_true]; exact h
  · simp only [hb, if_false]
    refine ⟨List.pairwise_cons.2 ⟨hm, h.1⟩, fun d hd => ?_⟩
    rcases List.mem_cons.1 hd with rfl | hd
    · exact hb
    · exact h.2 d hd

/-- A write keeps the canonical form. -/
theorem write_wf {m : Memory} (h : m.wf) (a : Nat) (b : Byte) : (m.write a b).wf := by
  induction m with
  | nil => exact list_wf h b (by simp)
  | cons c m ih =>
    have hlow := (List.pairwise_cons.1 h.1).1
    unfold Memory.write
    split
    · rename_i h1
      refine list_wf h b fun d hd => ?_
      rcases List.mem_cons.1 hd with rfl | hd
      · exact h1
      · exact Nat.lt_trans h1 (hlow d hd)
    · split
      · rename_i h2
        exact list_wf h.tail b (h2 ▸ hlow)
      · have hw := ih h.tail
        refine ⟨List.pairwise_cons.2 ⟨fun d hd => ?_, hw.1⟩, fun d hd => ?_⟩
        · rcases mem_write hd with ⟨rfl, -⟩ | hd
          · simp only; omega
          · exact hlow d hd
        · rcases List.mem_cons.1 hd with rfl | hd
          · exact h.2 _ List.mem_cons_self
          · exact hw.2 d hd

theorem write_storageInv {n : Nat} {m : Memory} (h : StorageInv n m) {a : Nat} (ha : a < n)
    (b : Byte) : StorageInv n (m.write a b) :=
  ⟨write_wf h.1 a b, fun c hc => by
    rcases mem_write hc with ⟨rfl, -⟩ | hc
    · exact ha
    · exact h.2 c hc⟩

/-- The three storage arrays of the reset state are in form. -/
theorem reset_storage_wf :
    State.reset.rx.mem.wf ∧ State.reset.tx.mem.wf ∧ State.reset.dec.buf.wf := by decide

/-- Equal memories: two canonical memories that read alike are the same data. -/
theorem Memory.ext_read {m m' : Memory} (h : m.wf) (h' : m'.wf) (hr : ∀ a, m.read a = m'.read a) :
    m = m' := by
  induction m generalizing m' with
  | nil =>
    cases m' with
    | nil => rfl
    | cons c m' =>
      have := hr c.1
      simp only [Memory.read, if_true] at this
      exact absurd this.symm (h'.2 c List.mem_cons_self)
  | cons c m ih =>
    have hlow := (List.pairwise_cons.1 h.1).1
    cases m' with
    | nil =>
      have := hr c.1
      simp only [Memory.read, if_true] at this
      exact absurd this (h.2 c List.mem_cons_self)
    | cons d m' =>
      have hlow' := (List.pairwise_cons.1 h'.1).1
      have hcd : c.1 = d.1 := by
        rcases Nat.lt_trichotomy c.1 d.1 with hlt | heq | hgt
        · have h1 := hr c.1
          rw [read_below (m := d :: m') (a := c.1) (by
            intro e he
            rcases List.mem_cons.1 he with rfl | he
            · exact hlt
            · exact Nat.lt_trans hlt (hlow' e he))] at h1
          simp only [Memory.read, if_true] at h1
          exact absurd h1 (h.2 c List.mem_cons_self)
        · exact heq
        · have h1 := hr d.1
          rw [read_below (m := c :: m) (a := d.1) (by
            intro e he
            rcases List.mem_cons.1 he with rfl | he
            · exact hgt
            · exact Nat.lt_trans hgt (hlow e he))] at h1
          simp only [Memory.read, if_true] at h1
          exact absurd h1.symm (h'.2 d List.mem_cons_self)
      have h2 : c.2 = d.2 := by
        have := hr c.1
        simpa [Memory.read, hcd] using this
      have h3 : m = m' := by
        refine ih h.tail h'.tail fun a => ?_
        by_cases ha : a = c.1
        · rw [ha, read_below hlow, read_below (hcd ▸ hlow')]
        · have := hr a
          simpa [Memory.read, ha, hcd ▸ ha] using this
      rw [h3, Prod.ext hcd h2]

/-- Everything `load` can do. -/
theorem load_eq_ok {c : Config} {sp : Space} {m : Memory} {i : Nat} {b : Byte} :
    load c sp m i = .ok b ↔ i < spaceSize c sp ∧ m.read i = b := by
  unfold load
  by_cases h : i < spaceSize c sp <;> simp [h]

/-- Everything `store` can do. -/
theorem store_eq_ok {c : Config} {sp : Space} {m m' : Memory} {i : Nat} {b : Byte} :
    store c sp m i b = .ok m' ↔ i < spaceSize c sp ∧ m.write i b = m' := by
  unfold store
  by_cases h : i < spaceSize c sp <;> simp [h]

end Sys2Proof.Machine
end

