-- ==== Sys2Proof/Laws/Ring.lean ====
section
/-! SUPPORT. The ring buffer: everything `putByte` and `getByte` can do, the list view (R24, R25), and that both
keep the invariant. -/

namespace Sys2Proof.Machine

/-! ### Indices -/

theorem nextIndex_lt {n i : Nat} (h : 0 < n) : nextIndex n i < n := Nat.mod_lt _ h

theorem next_add_mod (n i k : Nat) : (nextIndex n i + k) % n = (i + (k + 1)) % n := by
  rw [nextIndex, Nat.mod_add_mod]; congr 1; omega

theorem next_mod (n a : Nat) : nextIndex n (a % n) = (a + 1) % n := by
  rw [nextIndex, Nat.mod_add_mod]

/-- Two offsets less than a turn apart are different cells. -/
theorem offset_ne {n r j k : Nat} (hjk : j < k) (hk : k < n + j) : (r + j) % n ≠ (r + k) % n := by
  intro h
  have h1 : (r + k - (r + j)) % n = 0 := Nat.sub_mod_eq_zero_of_mod_eq h.symm
  have h2 : n ≤ r + k - (r + j) := Nat.le_of_dvd (by omega) (Nat.dvd_of_mod_eq_zero h1)
  omega

/-! ### The two operations -/

/-- The ring after an accepted put. -/
theorem putByte_room {q : Buf} {b : Byte} {s : State}
    (hne : (s.ring q).cnt ≠ capacity s.cfg q) (hwr : (s.ring q).wr < capacity s.cfg q) :
    putByte q b s = .ok (true, s.setRing q
      { s.ring q with
        mem := (s.ring q).mem.write (s.ring q).wr b
        wr := nextIndex (capacity s.cfg q) (s.ring q).wr
        cnt := (s.ring q).cnt + 1 }) := by
  have h2 : spaceSize s.cfg (bufSpace q) = capacity s.cfg q := by cases q <;> rfl
  unfold putByte store
  rw [h2]
  simp [isFull, hne, hwr]

theorem putByte_full {q : Buf} {b : Byte} {s : State} (h : (s.ring q).cnt = capacity s.cfg q) :
    putByte q b s = .ok (false, s) := by
  simp [putByte, isFull, h]

/-- Everything an accepted or refused put can have done. -/
theorem putByte_cases {q : Buf} {b : Byte} {s t : State} {ok : Bool} (h : putByte q b s = .ok (ok, t)) :
    (ok = false ∧ t = s ∧ (s.ring q).cnt = capacity s.cfg q) ∨
    (ok = true ∧ (s.ring q).cnt ≠ capacity s.cfg q ∧ (s.ring q).wr < capacity s.cfg q ∧
      t = s.setRing q
        { s.ring q with
          mem := (s.ring q).mem.write (s.ring q).wr b
          wr := nextIndex (capacity s.cfg q) (s.ring q).wr
          cnt := (s.ring q).cnt + 1 }) := by
  by_cases h1 : (s.ring q).cnt = capacity s.cfg q
  · rw [putByte_full h1] at h
    cases h
    exact .inl ⟨rfl, rfl, h1⟩
  · by_cases h2 : (s.ring q).wr < capacity s.cfg q
    · rw [putByte_room h1 h2] at h
      cases h
      exact .inr ⟨rfl, h1, h2, rfl⟩
    · have h3 : spaceSize s.cfg (bufSpace q) = capacity s.cfg q := by cases q <;> rfl
      unfold putByte store at h
      rw [h3] at h
      simp [isFull, h1, h2] at h

theorem getByte_empty {q : Buf} {s : State} (h : (s.ring q).cnt = 0) :
    getByte q s = .ok (none, s) := by
  simp [getByte, isEmpty, h]

theorem getByte_some {q : Buf} {s : State} (hne : (s.ring q).cnt ≠ 0)
    (hrd : (s.ring q).rd < capacity s.cfg q) :
    getByte q s = .ok (some ((s.ring q).mem.read (s.ring q).rd), s.setRing q
      { s.ring q with
        rd := nextIndex (capacity s.cfg q) (s.ring q).rd
        cnt := (s.ring q).cnt - 1 }) := by
  have h2 : spaceSize s.cfg (bufSpace q) = capacity s.cfg q := by cases q <;> rfl
  unfold getByte load
  rw [h2]
  simp [isEmpty, hne, hrd]

/-- Everything a get can have done. -/
theorem getByte_cases {q : Buf} {s t : State} {o : Option Byte} (h : getByte q s = .ok (o, t)) :
    (o = none ∧ t = s ∧ (s.ring q).cnt = 0) ∨
    (∃ b, o = some b ∧ (s.ring q).cnt ≠ 0 ∧ (s.ring q).rd < capacity s.cfg q ∧
      (s.ring q).mem.read (s.ring q).rd = b ∧
      t = s.setRing q
        { s.ring q with
          rd := nextIndex (capacity s.cfg q) (s.ring q).rd
          cnt := (s.ring q).cnt - 1 }) := by
  by_cases h1 : (s.ring q).cnt = 0
  · rw [getByte_empty h1] at h
    cases h
    exact .inl ⟨rfl, rfl, h1⟩
  · have h3 : spaceSize s.cfg (bufSpace q) = capacity s.cfg q := by cases q <;> rfl
    cases hl : load s.cfg (bufSpace q) (s.ring q).mem (s.ring q).rd with
    | error f => simp [getByte, isEmpty, h1, hl] at h
    | ok b =>
      obtain ⟨h4, h5⟩ := load_eq_ok.1 hl
      rw [h3] at h4
      rw [getByte_some h1 h4] at h
      cases h
      exact .inr ⟨_, rfl, h1, h4, rfl, rfl⟩

/-! ### The list view -/

theorem content_empty {n : Nat} {q : Ring} (h : q.cnt = 0) : content n q = [] := by
  simp [content, h]

/-- The content has `cnt` bytes (R104). -/
@[simp] theorem length_content (n : Nat) (q : Ring) : (content n q).length = q.cnt := by
  simp [content]

/-- A put appends (R25, R102). -/
theorem content_put {n : Nat} {q : Ring} (h : RingInv n q) (hne : q.cnt ≠ n) (b : Byte) :
    content n { q with mem := q.mem.write q.wr b, wr := nextIndex n q.wr, cnt := q.cnt + 1 } =
      content n q ++ [b] := by
  have hlt : q.cnt < n := Nat.lt_of_le_of_ne h.cnt_le hne
  simp only [content]
  rw [List.range_succ, List.map_append]
  congr 1
  · refine List.map_congr_left fun k hk => ?_
    have hk' : k < q.cnt := List.mem_range.1 hk
    refine read_write_other _ _ ?_
    rw [h.wr_eq]
    exact offset_ne hk' (by omega)
  · simp [← h.wr_eq, read_write_same h.storage.1]

/-- A get takes the head (R25, R103). -/
theorem content_get {n : Nat} {q : Ring} (h : RingInv n q) (hne : q.cnt ≠ 0) :
    content n q = q.mem.read q.rd :: content n { q with rd := nextIndex n q.rd, cnt := q.cnt - 1 } := by
  obtain ⟨c, hc⟩ : ∃ c, q.cnt = c + 1 := ⟨q.cnt - 1, by omega⟩
  simp only [content]
  rw [hc, List.range_succ_eq_map, List.map_cons, List.map_map]
  simp only [Nat.add_zero, Nat.mod_eq_of_lt h.rd_lt, Nat.add_sub_cancel]
  congr 1
  refine List.map_congr_left fun k _ => ?_
  simp [next_add_mod]

/-! ### The invariant -/

theorem RingInv.init {n : Nat} {q : Ring} (hn : 0 < n) (hs : StorageInv n q.mem) :
    RingInv n { q with rd := 0, wr := 0, cnt := 0 } where
  cnt_le := Nat.zero_le _
  rd_lt := hn
  wr_lt := hn
  wr_eq := by simp
  storage := hs

theorem RingInv.put {n : Nat} {q : Ring} (h : RingInv n q) (hne : q.cnt ≠ n) (b : Byte) :
    RingInv n { q with mem := q.mem.write q.wr b, wr := nextIndex n q.wr, cnt := q.cnt + 1 } where
  cnt_le := Nat.lt_of_le_of_ne h.cnt_le hne
  rd_lt := h.rd_lt
  wr_lt := nextIndex_lt (Nat.lt_of_le_of_lt (Nat.zero_le _) h.rd_lt)
  wr_eq := by
    simp only
    rw [h.wr_eq, next_mod]; rfl
  storage := write_storageInv h.storage h.wr_lt b

theorem RingInv.get {n : Nat} {q : Ring} (h : RingInv n q) (hne : q.cnt ≠ 0) :
    RingInv n { q with rd := nextIndex n q.rd, cnt := q.cnt - 1 } where
  cnt_le := by have := h.cnt_le; simp only; omega
  rd_lt := nextIndex_lt (Nat.lt_of_le_of_lt (Nat.zero_le _) h.rd_lt)
  wr_lt := h.wr_lt
  wr_eq := by
    simp only
    rw [next_add_mod, show q.cnt - 1 + 1 = q.cnt by omega, h.wr_eq]
  storage := h.storage

/-! ### Counters -/

theorem satInc_le {c : Config} {n : Nat} (h : n ≤ counterMax c) : satInc c n ≤ counterMax c := by
  unfold satInc; split <;> omega

theorem le_satInc (c : Config) (n : Nat) : n ≤ satInc c n := by
  unfold satInc; split <;> omega

/-- Under the bound of R38 saturation is a minimum. -/
theorem satInc_eq_min {c : Config} {n : Nat} (h : n ≤ counterMax c) :
    satInc c n = min (counterMax c) (n + 1) := by
  unfold satInc; split <;> omega

end Sys2Proof.Machine
end

