-- ==== Sys2Proof/Laws/Checksum.lean ====
section
/-! SUPPORT. The exclusive-or fold of R121 and the wire layout of R71. -/

namespace Sys2Proof.Machine

@[simp] theorem xorFold_nil : xorFold [] = 0x00 := rfl

theorem foldl_xor (xs : List Byte) (a b : Byte) :
    xs.foldl (fun acc x => acc ^^^ x) (a ^^^ b) = a ^^^ xs.foldl (fun acc x => acc ^^^ x) b := by
  induction xs generalizing b with
  | nil => rfl
  | cons x xs ih => simp only [List.foldl_cons, BitVec.xor_assoc, ih]

@[simp] theorem xorFold_cons (x : Byte) (xs : List Byte) : xorFold (x :: xs) = x ^^^ xorFold xs := by
  rw [xorFold, List.foldl_cons, BitVec.xor_comm, foldl_xor]; rfl

@[simp] theorem xorFold_append (xs ys : List Byte) :
    xorFold (xs ++ ys) = xorFold xs ^^^ xorFold ys := by
  induction xs with
  | nil => simp
  | cons x xs ih => simp [ih, BitVec.xor_assoc]

@[simp] theorem length_wireBytes (cfg : Config) (cmd : Byte) (payload : List Byte) :
    (wireBytes cfg cmd payload).length = payload.length + 4 := by
  simp [wireBytes]

theorem lenByte_toNat {payload : List Byte} (h : payload.length ≤ 255) :
    (lenByte payload).toNat = payload.length := by
  rw [lenByte, BitVec.toNat_ofNat]; exact Nat.mod_eq_of_lt (by omega)

end Sys2Proof.Machine
end

