-- ==== Sys2Proof/Laws/Decoder.lean ====
section
/-! SUPPORT. `DEC_STEP`: what a byte does depends on the parameters, the decoder and the counters only; under the
decoder invariant it never faults and keeps the invariant. -/

namespace Sys2Proof.Machine

/-! ### The scratch buffer -/

@[simp] theorem length_bufBytes (m : Memory) (n : Nat) : (bufBytes m n).length = n := by
  simp [bufBytes]

theorem bufBytes_succ (m : Memory) (n : Nat) : bufBytes m (n + 1) = bufBytes m n ++ [m.read n] := by
  simp [bufBytes, List.range_succ]

theorem bufBytes_write_ge (m : Memory) {n i : Nat} (b : Byte) (h : n ≤ i) :
    bufBytes (m.write i b) n = bufBytes m n := by
  refine List.map_congr_left fun k hk => ?_
  have : k < n := List.mem_range.1 hk
  exact read_write_other m b (by omega)

/-- Storing the next byte collects it. -/
theorem bufBytes_write {m : Memory} (h : m.wf) (n : Nat) (b : Byte) :
    bufBytes (m.write n b) (n + 1) = bufBytes m n ++ [b] := by
  rw [bufBytes_succ, read_write_same h, bufBytes_write_ge _ _ (Nat.le_refl _)]

theorem getElem?_bufBytes (m : Memory) {n i : Nat} (h : i < n) :
    (bufBytes m n)[i]? = some (m.read i) := by
  simp [bufBytes, h]

/-- Everything a load of scratch bytes does. -/
theorem loadRange_ok {c : Config} {m : Memory} (n : Nat) :
    ∀ i, i + n ≤ c.maxPayload →
      loadRange c m i n = .ok ((List.range n).map fun k => m.read (i + k)) := by
  induction n with
  | zero => intro i _; rfl
  | succ n ih =>
    intro i hle
    have hl : load c .decBuf m i = .ok (m.read i) := load_eq_ok.2 ⟨by simp [spaceSize]; omega, rfl⟩
    simp only [loadRange, hl, ih (i + 1) (by omega), Except.map]
    rw [List.range_succ_eq_map, List.map_cons, List.map_map]
    congr 2
    refine List.map_congr_left fun k _ => ?_
    simp only [Function.comp]
    congr 1; omega

theorem loadRange_bufBytes {c : Config} (m : Memory) {n : Nat} (h : n ≤ c.maxPayload) :
    loadRange c m 0 n = .ok (bufBytes m n) := by
  rw [loadRange_ok n 0 (by omega)]
  simp [bufBytes]

/-! ### The core of a step -/

/-- What a byte does to the decoder and the counters. -/
def decodeCore (b : Byte) (cfg : Config) (d : Decoder) (c : Stats) :
    Except Fault (DecResult × Decoder × Stats) :=
  (decodeByte b { State.resetWith cfg with dec := d, stats := c }).map
    fun r => (r.1, r.2.dec, r.2.stats)

/-- `decodeByte` is its core: no other field is read or written. -/
theorem decodeByte_eq_core (b : Byte) (s : State) :
    decodeByte b s = (decodeCore b s.cfg s.dec s.stats).map
      fun r => (r.1, { s with dec := r.2.1, stats := r.2.2 }) := by
  unfold decodeCore decodeByte
  simp only [State.resetWith, State.powerOn]
  cases hp : s.dec.phase with
  | waitStx =>
    simp only [decodeWaitStx, Except.map]
    by_cases h : b = s.cfg.stx <;> simp [h, State.setDec, countDropped]
  | awaitLen =>
    simp only [decodeAwaitLen, Except.map]
    by_cases h : s.cfg.maxPayload < b.toNat <;> simp [h, State.setDec, countDropped]
  | awaitCmd => simp [decodeAwaitCmd, Except.map, State.setDec]
  | awaitPayload =>
    simp only [decodeAwaitPayload]
    cases h : store s.cfg .decBuf s.dec.buf s.dec.idx b <;> simp [Except.map, State.setDec]
  | awaitCrc =>
    simp only [decodeAwaitCrc]
    by_cases h : b = s.dec.acc
    · cases hl : loadRange s.cfg s.dec.buf 0 s.dec.len.toNat <;>
        simp [h, Except.map, State.setDec]
    · simp [h, Except.map, State.setDec, countChecksumError]

/-! The eleven cases of R145, as equations of the core. -/

theorem core_waitStx_match {cfg : Config} {d : Decoder} {c : Stats} (hp : d.phase = .waitStx) :
    decodeCore cfg.stx cfg d c = .ok (.consumed, { d with acc := 0x00, phase := .awaitLen }, c) := by
  simp [decodeCore, decodeByte, hp, decodeWaitStx, Except.map, State.setDec, State.resetWith, State.powerOn]

theorem core_waitStx_drop {b : Byte} {cfg : Config} {d : Decoder} {c : Stats}
    (hp : d.phase = .waitStx) (hb : b ≠ cfg.stx) :
    decodeCore b cfg d c =
      .ok (.consumed, d, { c with bytesDropped := satInc cfg c.bytesDropped }) := by
  simp [decodeCore, decodeByte, hp, decodeWaitStx, Except.map, countDropped, State.resetWith, State.powerOn, hb]

theorem core_awaitLen_valid {b : Byte} {cfg : Config} {d : Decoder} {c : Stats}
    (hp : d.phase = .awaitLen) (hb : b.toNat ≤ cfg.maxPayload) :
    decodeCore b cfg d c = .ok (.consumed, { d with len := b, acc := b, phase := .awaitCmd }, c) := by
  simp [decodeCore, decodeByte, hp, decodeAwaitLen, Except.map, State.setDec, State.resetWith, State.powerOn,
    Nat.not_lt.2 hb]

theorem core_awaitLen_invalid {b : Byte} {cfg : Config} {d : Decoder} {c : Stats}
    (hp : d.phase = .awaitLen) (hb : cfg.maxPayload < b.toNat) :
    decodeCore b cfg d c =
      .ok (.consumed, { d with phase := .waitStx },
        { c with bytesDropped := satInc cfg c.bytesDropped }) := by
  simp [decodeCore, decodeByte, hp, decodeAwaitLen, Except.map, State.setDec, countDropped,
    State.resetWith, State.powerOn, hb]

theorem core_awaitCmd {b : Byte} {cfg : Config} {d : Decoder} {c : Stats}
    (hp : d.phase = .awaitCmd) :
    decodeCore b cfg d c = .ok (.consumed,
      { d with
        cmd := b
        acc := d.acc ^^^ b
        idx := 0
        phase := if 0 < d.len.toNat then .awaitPayload else .awaitCrc }, c) := by
  simp [decodeCore, decodeByte, hp, decodeAwaitCmd, Except.map, State.setDec, State.resetWith, State.powerOn]

theorem core_awaitPayload {b : Byte} {cfg : Config} {d : Decoder} {c : Stats}
    (hp : d.phase = .awaitPayload) (hi : d.idx < cfg.maxPayload) :
    decodeCore b cfg d c = .ok (.consumed,
      { d with
        buf := d.buf.write d.idx b
        acc := d.acc ^^^ b
        idx := d.idx + 1
        phase := if d.idx + 1 = d.len.toNat then .awaitCrc else .awaitPayload }, c) := by
  simp [decodeCore, decodeByte, hp, decodeAwaitPayload, store, spaceSize, hi, Except.map,
    State.setDec, State.resetWith, State.powerOn]

theorem core_awaitCrc_match {cfg : Config} {d : Decoder} {c : Stats} (hp : d.phase = .awaitCrc)
    (hl : d.len.toNat ≤ cfg.maxPayload) :
    decodeCore d.acc cfg d c = .ok
      (.frame { command := d.cmd, length := d.len, payload := bufBytes d.buf d.len.toNat },
        { d with phase := .waitStx }, c) := by
  simp [decodeCore, decodeByte, hp, decodeAwaitCrc, loadRange_bufBytes d.buf hl, Except.map,
    State.setDec, State.resetWith, State.powerOn]

theorem core_awaitCrc_mismatch {b : Byte} {cfg : Config} {d : Decoder} {c : Stats}
    (hp : d.phase = .awaitCrc) (hb : b ≠ d.acc) :
    decodeCore b cfg d c = .ok (.consumed, { d with phase := .waitStx },
      { c with checksumErrors := satInc cfg c.checksumErrors }) := by
  simp [decodeCore, decodeByte, hp, decodeAwaitCrc, hb, Except.map, State.setDec,
    countChecksumError, State.resetWith, State.powerOn]

/-! ### The invariant -/

/-- The counters stay inside their width (R38). -/
abbrev StatsInv (cfg : Config) (c : Stats) : Prop :=
  c.bytesDropped ≤ counterMax cfg ∧ c.checksumErrors ≤ counterMax cfg

/-- Under the decoder invariant a byte has a defined effect, which keeps the invariant; a frame it completes is
well formed and leaves `WAIT_STX` (R40, R141); the result is not `EMPTY`. -/
theorem decodeCore_inv {b : Byte} {cfg : Config} {d : Decoder} {c : Stats}
    (hd : DecoderInv cfg.maxPayload d) (hc : StatsInv cfg c) :
    ∃ r d' c', decodeCore b cfg d c = .ok (r, d', c') ∧ DecoderInv cfg.maxPayload d' ∧
      StatsInv cfg c' ∧ r ≠ .empty ∧
      (∀ f, r = .frame f → d'.phase = .waitStx ∧ f.payload.length = f.length.toNat ∧
        f.payload.length ≤ cfg.maxPayload) ∧
      (∀ a, cfg.maxPayload ≤ a → d'.buf.read a = d.buf.read a) ∧
      c.bytesDropped ≤ c'.bytesDropped ∧ c.checksumErrors ≤ c'.checksumErrors := by
  have hlen := hd.len_le
  have hidx := hd.idx_le
  cases hp : d.phase with
  | waitStx =>
    by_cases hb : b = cfg.stx
    · subst hb
      refine ⟨_, _, _, core_waitStx_match hp, ?_, hc, by simp, by simp, by simp, by simp, by simp⟩
      exact { len_le := hlen, idx_le := hidx, acc_len := by simp, acc_cmd := by simp,
              idx_payload := by simp, idx_crc := by simp,
              acc_fold := by simp, storage := hd.storage }
    · refine ⟨_, _, _, core_waitStx_drop hp hb, hd, ⟨satInc_le hc.1, hc.2⟩, by simp, by simp,
        by simp, le_satInc _ _, by simp⟩
  | awaitLen =>
    by_cases hb : b.toNat ≤ cfg.maxPayload
    · refine ⟨_, _, _, core_awaitLen_valid hp hb, ?_, hc, by simp, by simp, by simp, by simp,
        by simp⟩
      exact { len_le := hb, idx_le := hidx, acc_len := by simp, acc_cmd := by simp,
              idx_payload := by simp, idx_crc := by simp,
              acc_fold := by simp, storage := hd.storage }
    · have hb' : cfg.maxPayload < b.toNat := by omega
      refine ⟨_, _, _, core_awaitLen_invalid hp hb', ?_, ⟨satInc_le hc.1, hc.2⟩, by simp, by simp,
        by simp, le_satInc _ _, by simp⟩
      exact { len_le := hlen, idx_le := hidx, acc_len := by simp, acc_cmd := by simp,
              idx_payload := by simp, idx_crc := by simp,
              acc_fold := by simp, storage := hd.storage }
  | awaitCmd =>
    refine ⟨_, _, _, core_awaitCmd hp, ?_, hc, by simp, by simp, by simp, by simp, by simp⟩
    have hacc := hd.acc_cmd hp
    by_cases h0 : 0 < d.len.toNat
    · exact { len_le := hlen, idx_le := Nat.zero_le _, acc_len := by simp [h0],
              acc_cmd := by simp [h0], idx_payload := by simp [h0], idx_crc := by simp [h0], acc_fold := by simp [hacc, bufBytes],
              storage := hd.storage }
    · exact { len_le := hlen, idx_le := Nat.zero_le _, acc_len := by simp [h0],
              acc_cmd := by simp [h0], idx_payload := by simp [h0],
              idx_crc := by simp only; omega, acc_fold := by simp [hacc, bufBytes],
              storage := hd.storage }
  | awaitPayload =>
    have hi := hd.idx_payload hp
    refine ⟨_, _, _, core_awaitPayload hp (by omega), ?_, hc, by simp, by simp, ?_, by simp,
      by simp⟩
    · have hf := hd.acc_fold (.inl hp)
      refine { len_le := hlen, idx_le := by simp only; omega, acc_len := ?_, acc_cmd := ?_,
               idx_payload := ?_, idx_crc := ?_, acc_fold := ?_,
               storage := write_storageInv hd.storage (by omega) b }
      · simp only; split <;> simp
      · simp only; split <;> simp
      · simp only; split <;> simp; omega
      · simp only; split <;> simp; omega
      · intro _
        simp only
        rw [bufBytes_write hd.storage.1, hf]
        simp [BitVec.xor_assoc]
    · intro a ha
      exact read_write_other _ _ (by omega)
  | awaitCrc =>
    have hi := hd.idx_crc hp
    have hd' : DecoderInv cfg.maxPayload { d with phase := .waitStx } :=
      { len_le := hlen, idx_le := hidx, acc_len := by simp, acc_cmd := by simp,
        idx_payload := by simp, idx_crc := by simp,
        acc_fold := by simp, storage := hd.storage }
    by_cases hb : b = d.acc
    · subst hb
      refine ⟨_, _, _, core_awaitCrc_match hp hlen, hd', hc, by simp, ?_, by simp, by simp,
        by simp⟩
      intro f hf
      cases hf
      simpa using hlen
    · exact ⟨_, _, _, core_awaitCrc_mismatch hp hb, hd', ⟨hc.1, satInc_le hc.2⟩, by simp, by simp,
        by simp, by simp, le_satInc _ _⟩

end Sys2Proof.Machine
end

