-- ==== Sys2Proof/Laws/Frames.lean ====
section
/-! SUPPORT. Everything the loops can change, from every state: which fields a `DEC_STEP`, a `POLL` and a `SEND`
leave alone, and in which direction the others move. -/

namespace Sys2Proof.Machine

theorem outcome_next {x : Except Fault State} {t : State} (h : outcome x = .next t) : x = .ok t := by
  cases x with
  | error e => cases h
  | ok u => cases h; rfl

/-- A `DEC_STEP` writes the read side of `rx`, the decoder and the counters, and counts upwards. -/
theorem decodeStep_frame {s t : State} {r : DecResult} (h : decodeStep s = .ok (r, t)) :
    ∃ rx d c, t = { s with rx := rx, dec := d, stats := c } ∧ rx.wr = s.rx.wr ∧
      rx.mem = s.rx.mem ∧ rx.cnt ≤ s.rx.cnt ∧ s.stats.bytesDropped ≤ c.bytesDropped ∧
      s.stats.checksumErrors ≤ c.checksumErrors := by
  unfold decodeStep at h
  split at h
  · cases h
  · rename_i t' hg
    cases h
    rcases getByte_cases hg with ⟨-, rfl, -⟩ | ⟨b, hb, -⟩
    · exact ⟨t.rx, t.dec, t.stats, rfl, rfl, rfl, Nat.le_refl _, Nat.le_refl _, Nat.le_refl _⟩
    · cases hb
  · rename_i b t' hg
    rcases getByte_cases hg with ⟨hb, -⟩ | ⟨b', hb, -, -, -, rfl⟩
    · cases hb
    · revert h
      simp only [decodeByte]
      split
      · intro h; cases h; unfold decodeWaitStx; split
        · exact ⟨_, _, _, rfl, rfl, rfl, Nat.sub_le _ _, Nat.le_refl _, Nat.le_refl _⟩
        · exact ⟨_, _, _, rfl, rfl, rfl, Nat.sub_le _ _, le_satInc _ _, Nat.le_refl _⟩
      · intro h; cases h; unfold decodeAwaitLen; split
        · exact ⟨_, _, _, rfl, rfl, rfl, Nat.sub_le _ _, le_satInc _ _, Nat.le_refl _⟩
        · exact ⟨_, _, _, rfl, rfl, rfl, Nat.sub_le _ _, Nat.le_refl _, Nat.le_refl _⟩
      · intro h
        cases h
        exact ⟨_, _, _, rfl, rfl, rfl, Nat.sub_le _ _, Nat.le_refl _, Nat.le_refl _⟩
      · unfold decodeAwaitPayload
        generalize store _ _ _ _ _ = m
        intro h
        cases m with
        | error e => cases h
        | ok m =>
          cases h
          exact ⟨_, _, _, rfl, rfl, rfl, Nat.sub_le _ _, Nat.le_refl _, Nat.le_refl _⟩
      · simp only [decodeAwaitCrc]
        split
        · generalize loadRange _ _ _ _ = m
          intro h
          cases m with
          | error e => cases h
          | ok m =>
            cases h
            exact ⟨_, _, _, rfl, rfl, rfl, Nat.sub_le _ _, Nat.le_refl _, Nat.le_refl _⟩
        · intro h
          cases h
          exact ⟨_, _, _, rfl, rfl, rfl, Nat.sub_le _ _, Nat.le_refl _, le_satInc _ _⟩

/-- The loop of `POLL`: the same, and it ends or stays in progress with nothing presented. -/
theorem pollLoop_frame (n : Nat) : ∀ {s t : State}, pollLoop n s = .ok t →
    ∃ rx d c ho rh,
      t = { s with rx := rx, dec := d, stats := c, host := ho, resp := { s.resp with host := rh } } ∧
      rx.wr = s.rx.wr ∧ rx.mem = s.rx.mem ∧ rx.cnt ≤ s.rx.cnt ∧
      s.stats.bytesDropped ≤ c.bytesDropped ∧ s.stats.checksumErrors ≤ c.checksumErrors ∧
      (ho = .idle ∨ ho = .polling ∧ rh = s.resp.host) := by
  induction n with
  | zero =>
    intro s t h
    cases h
    exact ⟨_, _, _, _, _, rfl, rfl, rfl, Nat.le_refl _, Nat.le_refl _, Nat.le_refl _,
      .inr ⟨rfl, rfl⟩⟩
  | succ n ih =>
    intro s t h
    unfold pollLoop at h
    split at h
    · cases h
    · rename_i u hd
      obtain ⟨rx, d, c, rfl, h1, h2, h3, h4, h5⟩ := decodeStep_frame hd
      cases h; exact ⟨_, _, _, _, _, rfl, h1, h2, h3, h4, h5, .inl rfl⟩
    · rename_i f u hd
      obtain ⟨rx, d, c, rfl, h1, h2, h3, h4, h5⟩ := decodeStep_frame hd
      cases h; exact ⟨_, _, _, _, _, rfl, h1, h2, h3, h4, h5, .inl rfl⟩
    · rename_i u hd
      obtain ⟨rx, d, c, rfl, h1, h2, h3, h4, h5⟩ := decodeStep_frame hd
      obtain ⟨rx', d', c', ho, rh, rfl, g1, g2, g3, g4, g5, g6⟩ := ih h
      exact ⟨rx', d', c', ho, rh, rfl, g1.trans h1, g2.trans h2, Nat.le_trans g3 h3,
        Nat.le_trans h4 g4, Nat.le_trans h5 g5, g6⟩

/-- The loop of `SEND`: it writes the write side of `tx`, and ends or stays in progress with bytes left and nothing
presented. -/
theorem sendLoop_frame (xs : List Byte) : ∀ {l : Option Nat} {s t : State}, sendLoop l xs s = .ok t →
    ∃ tx ho rh, t = { s with tx := tx, host := ho, resp := { s.resp with host := rh } } ∧
      tx.rd = s.tx.rd ∧ s.tx.cnt ≤ tx.cnt ∧
      (ho = .idle ∨ (∃ y ys, ho = .sending (y :: ys)) ∧ rh = s.resp.host) := by
  induction xs with
  | nil =>
    intro l s t h
    unfold sendLoop at h
    cases h
    exact ⟨s.tx, _, _, rfl, rfl, Nat.le_refl _, .inl rfl⟩
  | cons x xs ih =>
    intro l s t h
    by_cases hl : l = some 0
    · subst hl
      unfold sendLoop at h
      cases h
      exact ⟨s.tx, _, _, rfl, rfl, Nat.le_refl _, .inr ⟨⟨_, _, rfl⟩, rfl⟩⟩
    · rw [sendLoop.eq_3 l s x xs hl] at h
      split at h
      · cases h
      · rename_i u hp
        cases h
        rcases putByte_cases hp with ⟨-, rfl, -⟩ | ⟨hb, -⟩
        · exact ⟨_, _, _, rfl, rfl, Nat.le_refl _, .inl rfl⟩
        · cases hb
      · rename_i u hp
        rcases putByte_cases hp with ⟨hb, -⟩ | ⟨-, -, -, rfl⟩
        · cases hb
        · obtain ⟨tx, ho, rh, rfl, h1, h2, h3⟩ := ih h
          exact ⟨tx, ho, rh, rfl, h1, Nat.le_trans (Nat.le_succ _) h2, h3⟩

/-- A push writes the write side of `rx` and `bytes_dropped`, which it counts upwards. -/
theorem pushByte_frame {b : Byte} {s t : State} {ok : Bool} (h : pushByte b s = .ok (ok, t)) :
    ∃ rx c, t = { s with rx := rx, stats := c } ∧ rx.rd = s.rx.rd ∧ s.rx.cnt ≤ rx.cnt ∧
      s.stats.bytesDropped ≤ c.bytesDropped ∧ c.checksumErrors = s.stats.checksumErrors := by
  unfold pushByte at h
  generalize hq : putByte .rx b s = x at h
  cases x with
  | error e => cases h
  | ok x =>
    obtain ⟨ok', u⟩ := x
    cases h
    rcases putByte_cases hq with ⟨rfl, rfl, -⟩ | ⟨rfl, -, -, rfl⟩
    · exact ⟨u.rx, _, rfl, rfl, Nat.le_refl _, le_satInc _ _, rfl⟩
    · exact ⟨_, s.stats, rfl, rfl, Nat.le_succ _, Nat.le_refl _, rfl⟩

theorem feedBytes_frame (xs : List Byte) : ∀ {s t : State} {oks : List Bool},
    feedBytes xs s = .ok (oks, t) →
    ∃ rx c, t = { s with rx := rx, stats := c } ∧ rx.rd = s.rx.rd ∧ s.rx.cnt ≤ rx.cnt ∧
      s.stats.bytesDropped ≤ c.bytesDropped ∧ c.checksumErrors = s.stats.checksumErrors := by
  induction xs with
  | nil =>
    intro s t oks h
    cases h
    exact ⟨s.rx, s.stats, rfl, rfl, Nat.le_refl _, Nat.le_refl _, rfl⟩
  | cons b xs ih =>
    intro s t oks h
    unfold feedBytes at h
    split at h
    · cases h
    · rename_i ok u hp
      generalize hq : feedBytes xs u = x at h
      cases x with
      | error e => cases h
      | ok x =>
        obtain ⟨oks', u'⟩ := x
        cases h
        obtain ⟨rx, c, rfl, h1, h2, h3, h4⟩ := pushByte_frame hp
        obtain ⟨rx', c', rfl, g1, g2, g3, g4⟩ := ih hq
        exact ⟨rx', c', rfl, g1.trans h1, Nat.le_trans h2 g2, Nat.le_trans h3 g3, g4.trans h4⟩

end Sys2Proof.Machine
end

