-- ==== Sys2Proof/Laws/Poll.lean ====
section
/-! SUPPORT. `POLL` as a function of the content of `rx`, the decoder and the counters (R25, R151): everything an
uninterrupted `POLL` can do, said once. -/

namespace Sys2Proof.Machine

/-! ### Taking bytes from the front -/

/-- The ring after `k` gets. -/
def advance (n : Nat) (q : Ring) (k : Nat) : Ring := { q with rd := (q.rd + k) % n, cnt := q.cnt - k }

theorem advance_zero {n : Nat} {q : Ring} (h : RingInv n q) : advance n q 0 = q := by
  simp [advance, Nat.mod_eq_of_lt h.rd_lt]

theorem advance_advance (n : Nat) (q : Ring) (j k : Nat) :
    advance n (advance n q j) k = advance n q (j + k) := by
  simp [advance, Nat.add_assoc, Nat.sub_sub]

theorem RingInv.advance {n : Nat} {q : Ring} (h : RingInv n q) {k : Nat} (hk : k ≤ q.cnt) :
    RingInv n (advance n q k) ∧ content n (Machine.advance n q k) = (content n q).drop k := by
  induction k with
  | zero => rw [advance_zero h]; exact ⟨h, rfl⟩
  | succ k ih =>
    obtain ⟨h1, h2⟩ := ih (by omega)
    have hne : (Machine.advance n q k).cnt ≠ 0 := by simp [Machine.advance]; omega
    have h3 : Machine.advance n q (k + 1) =
        { Machine.advance n q k with
          rd := nextIndex n (Machine.advance n q k).rd, cnt := (Machine.advance n q k).cnt - 1 } := by
      simp [Machine.advance, nextIndex, Nat.add_assoc, Nat.sub_sub]
    rw [h3]
    refine ⟨h1.get hne, ?_⟩
    have h4 := content_get h1 hne
    rw [h2] at h4
    rw [← List.drop_drop, h4]; rfl

/-! ### Decoding a list of bytes -/

/-- What a run over a list of bytes ends with. -/
structure ListRun where
  frame : Option Frame
  taken : Nat
  dec : Decoder
  stats : Stats
  deriving DecidableEq, Repr

/-- The same run with `k` bytes taken before it. -/
def ListRun.after (k : Nat) (r : ListRun) : ListRun := { r with taken := r.taken + k }

/-- The decoder over a list of bytes, up to the first frame. -/
def decodeList (cfg : Config) : List Byte → Decoder → Stats → Except Fault ListRun
  | [], d, c => .ok { frame := none, taken := 0, dec := d, stats := c }
  | b :: bs, d, c =>
    match decodeCore b cfg d c with
    | .error f => .error f
    | .ok (.frame f, d', c') => .ok { frame := some f, taken := 1, dec := d', stats := c' }
    | .ok (_, d', c') => (decodeList cfg bs d' c').map (ListRun.after 1)

theorem decodeList_consumed {cfg : Config} {b : Byte} {bs : List Byte} {d d' : Decoder}
    {c c' : Stats} (h : decodeCore b cfg d c = .ok (.consumed, d', c')) :
    decodeList cfg (b :: bs) d c = (decodeList cfg bs d' c').map (ListRun.after 1) := by
  simp [decodeList, h]

theorem decodeList_frame {cfg : Config} {b : Byte} {bs : List Byte} {d d' : Decoder}
    {c c' : Stats} {f : Frame} (h : decodeCore b cfg d c = .ok (.frame f, d', c')) :
    decodeList cfg (b :: bs) d c = .ok { frame := some f, taken := 1, dec := d', stats := c' } := by
  simp [decodeList, h]

theorem map_after_after (x : Except Fault ListRun) (j k : Nat) :
    (x.map (ListRun.after j)).map (ListRun.after k) = x.map (ListRun.after (j + k)) := by
  cases x <;> simp [Except.map, ListRun.after, Nat.add_assoc]

/-- Everything a run over a list can do under the decoder invariant. -/
theorem decodeList_inv {cfg : Config} (bs : List Byte) :
    ∀ {d : Decoder} {c : Stats}, DecoderInv cfg.maxPayload d → StatsInv cfg c →
      ∃ r, decodeList cfg bs d c = .ok r ∧ DecoderInv cfg.maxPayload r.dec ∧ StatsInv cfg r.stats ∧
        r.taken ≤ bs.length ∧ (r.frame = none → r.taken = bs.length) ∧
        (∀ f, r.frame = some f → 0 < r.taken ∧ r.dec.phase = .waitStx ∧
          f.payload.length = f.length.toNat ∧ f.payload.length ≤ cfg.maxPayload) ∧
        (∀ a, cfg.maxPayload ≤ a → r.dec.buf.read a = d.buf.read a) ∧
        c.bytesDropped ≤ r.stats.bytesDropped ∧ c.checksumErrors ≤ r.stats.checksumErrors := by
  induction bs with
  | nil => intro d c hd hc; exact ⟨_, rfl, hd, hc, by simp, by simp, by simp, by simp, by simp⟩
  | cons b bs ih =>
    intro d c hd hc
    obtain ⟨r, d', c', h, hd', hc', hne, hf, hb, hc1, hc2⟩ := decodeCore_inv (b := b) hd hc
    cases r with
    | empty => exact absurd rfl hne
    | frame f =>
      refine ⟨_, decodeList_frame h, hd', hc', by simp, by simp, ?_, hb, hc1, hc2⟩
      intro g hg
      cases hg
      exact ⟨by simp, hf f rfl⟩
    | consumed =>
      obtain ⟨r, h2, hd2, hc2', hle, hnone, hsome, hb2, hc3, hc4⟩ := ih hd' hc'
      refine ⟨r.after 1, by rw [decodeList_consumed h, h2]; rfl, hd2, hc2', ?_, ?_, ?_, ?_, ?_, ?_⟩
      · simp [ListRun.after, hle]
      · intro hn; simp [ListRun.after, hnone hn]
      · intro f hf; simp only [ListRun.after] at hf ⊢
        exact ⟨by omega, (hsome f hf).2⟩
      · intro a ha; simp only [ListRun.after]; rw [hb2 a ha, hb a ha]
      · exact Nat.le_trans hc1 hc3
      · exact Nat.le_trans hc2 hc4

/-- Bytes that complete no frame leave the rest to be decoded from where they led. -/
theorem decodeList_append {cfg : Config} (xs ys : List Byte) :
    ∀ {d : Decoder} {c : Stats} {r : ListRun}, decodeList cfg xs d c = .ok r → r.frame = none →
      r.taken = xs.length ∧
      decodeList cfg (xs ++ ys) d c =
        (decodeList cfg ys r.dec r.stats).map (ListRun.after xs.length) := by
  induction xs with
  | nil =>
    intro d c r h _
    cases h
    refine ⟨rfl, ?_⟩
    simp only [List.nil_append, List.length_nil]
    cases decodeList cfg ys d c <;> simp [Except.map, ListRun.after]
  | cons b bs ih =>
    intro d c r h hn
    simp only [decodeList, List.cons_append] at h ⊢
    cases hc : decodeCore b cfg d c with
    | error f => simp [hc] at h
    | ok p =>
      obtain ⟨res, d', c'⟩ := p
      cases res with
      | frame f => simp only [hc] at h; cases h; simp at hn
      | empty | consumed =>
        simp only [hc] at h
        cases hl : decodeList cfg bs d' c' with
        | error f => simp [hl, Except.map] at h
        | ok r' =>
          simp only [hl, Except.map] at h
          cases h
          obtain ⟨h1, h2⟩ := ih hl hn
          refine ⟨by simp [ListRun.after, h1], ?_⟩
          simp only [h2, map_after_after, List.length_cons, ListRun.after]

/-- A frame completed inside the first bytes does not depend on the bytes behind it. -/
theorem decodeList_append_frame {cfg : Config} (xs ys : List Byte) :
    ∀ {d : Decoder} {c : Stats} {r : ListRun} {f : Frame}, decodeList cfg xs d c = .ok r →
      r.frame = some f → decodeList cfg (xs ++ ys) d c = .ok r := by
  induction xs with
  | nil => intro d c r f h hf; cases h; simp at hf
  | cons b bs ih =>
    intro d c r f h hf
    simp only [decodeList, List.cons_append] at h ⊢
    cases hc : decodeCore b cfg d c with
    | error e => simp [hc] at h
    | ok p =>
      obtain ⟨res, d', c'⟩ := p
      cases res with
      | frame g => simpa [hc] using h
      | empty | consumed =>
        simp only [hc] at h ⊢
        cases hl : decodeList cfg bs d' c' with
        | error e => simp [hl, Except.map] at h
        | ok r' =>
          simp only [hl, Except.map] at h
          cases h
          rw [ih hl hf]; rfl

/-! ### Payload and whole frames -/

/-- The scratch buffer after payload bytes stored from index `i` on. -/
def writeMany : Memory → Nat → List Byte → Memory
  | m, _, [] => m
  | m, i, b :: bs => writeMany (m.write i b) (i + 1) bs

theorem bufBytes_writeMany (bs : List Byte) : ∀ {m : Memory} (i : Nat), m.wf →
    bufBytes (writeMany m i bs) (i + bs.length) = bufBytes m i ++ bs := by
  induction bs with
  | nil => intro m i _; simp [writeMany]
  | cons b bs ih =>
    intro m i h
    rw [writeMany, List.length_cons, show i + (bs.length + 1) = i + 1 + bs.length by omega,
      ih (i + 1) (write_wf h i b), bufBytes_write h]
    simp

/-- The payload phase over all the payload bytes (R137 to R139). -/
theorem decodeList_payload {cfg : Config} {rest : List Byte} (p : List Byte) :
    ∀ {d : Decoder} {c : Stats}, d.phase = .awaitPayload → p ≠ [] →
      d.idx + p.length = d.len.toNat → d.len.toNat ≤ cfg.maxPayload →
      decodeList cfg (p ++ rest) d c =
        (decodeList cfg rest
          { d with
            phase := .awaitCrc
            idx := d.len.toNat
            acc := d.acc ^^^ xorFold p
            buf := writeMany d.buf d.idx p } c).map (ListRun.after p.length) := by
  induction p with
  | nil => intro d c _ h; exact absurd rfl h
  | cons b p ih =>
    intro d c hp _ hl hm
    simp only [List.length_cons] at hl
    rw [List.cons_append, decodeList_consumed (core_awaitPayload hp (by omega))]
    by_cases hpn : p = []
    · subst hpn
      have h1 : d.idx + 1 = d.len.toNat := by simpa using hl
      simp [h1, writeMany]
    · have hpos : 0 < p.length := List.length_pos_iff.2 hpn
      have h1 : ¬ d.idx + 1 = d.len.toNat := by omega
      simp only [h1, if_false]
      rw [ih (d := { d with
            phase := .awaitPayload, idx := d.idx + 1, acc := d.acc ^^^ b,
            buf := d.buf.write d.idx b })
          rfl hpn (by simp only; omega) hm, map_after_after]
      simp [writeMany, BitVec.xor_assoc]

/-- The bytes of a frame after `STX`, up to the `CRC`, from `AWAIT_LEN` (R133 to R139). -/
theorem decodeList_body {cfg : Config} {cmd : Byte} {payload rest : List Byte} {d : Decoder}
    {c : Stats} (hp : d.phase = .awaitLen) (hm : payload.length ≤ cfg.maxPayload)
    (h255 : cfg.maxPayload ≤ 255) :
    decodeList cfg (lenByte payload :: cmd :: (payload ++ rest)) d c =
      (decodeList cfg rest
        { phase := .awaitCrc
          len := lenByte payload
          cmd := cmd
          idx := payload.length
          acc := frameCrc cmd payload
          buf := writeMany d.buf 0 payload } c).map (ListRun.after (payload.length + 2)) := by
  have hl : (lenByte payload).toNat = payload.length := lenByte_toNat (by omega)
  rw [decodeList_consumed (core_awaitLen_valid hp (by omega)),
    decodeList_consumed (core_awaitCmd rfl), map_after_after]
  cases payload with
  | nil =>
    simp [lenByte, frameCrc, writeMany]
  | cons b p =>
    have h0 : 0 < (lenByte (b :: p)).toNat := by rw [hl]; simp
    simp only [h0, if_true]
    rw [decodeList_payload (b :: p) rfl (by simp) (by simp only; omega) (by simp only; omega),
      map_after_after]
    simp [hl, frameCrc, BitVec.xor_assoc]

/-- A whole valid frame, from `WAIT_STX` (R78, R131 to R141): the frame is emitted, `L + 4` bytes are taken and no
counter changes. -/
theorem decodeList_wire {cfg : Config} {cmd : Byte} {payload rest : List Byte} {d : Decoder}
    {c : Stats} (hbuf : d.buf.wf) (hp : d.phase = .waitStx) (hm : payload.length ≤ cfg.maxPayload)
    (h255 : cfg.maxPayload ≤ 255) :
    decodeList cfg (wireBytes cfg cmd payload ++ rest) d c = .ok
      { frame := some { command := cmd, length := lenByte payload, payload := payload }
        taken := payload.length + 4
        dec := { phase := .waitStx, len := lenByte payload, cmd := cmd, idx := payload.length,
                 acc := frameCrc cmd payload, buf := writeMany d.buf 0 payload }
        stats := c } := by
  have hl : (lenByte payload).toNat = payload.length := lenByte_toNat (by omega)
  have hb : bufBytes (writeMany d.buf 0 payload) payload.length = payload := by
    have := bufBytes_writeMany payload 0 hbuf
    simpa [bufBytes] using this
  have hcrc := core_awaitCrc_match (cfg := cfg) (c := c)
    (d := { phase := .awaitCrc, len := lenByte payload, cmd := cmd, idx := payload.length,
            acc := frameCrc cmd payload, buf := writeMany d.buf 0 payload })
    rfl (by simp only; omega)
  simp only [wireBytes, List.cons_append, List.append_assoc, List.nil_append]
  rw [decodeList_consumed (core_waitStx_match hp), decodeList_body rfl hm h255, map_after_after,
    decodeList_frame hcrc]
  simp [Except.map, ListRun.after, hl, hb]
  omega

/-- A frame with a wrong `CRC` (R140): no frame, one checksum error, and the rest is decoded from `WAIT_STX`. -/
theorem decodeList_corrupted {cfg : Config} {cmd wrong : Byte} {payload rest : List Byte}
    {d : Decoder} {c : Stats} (hp : d.phase = .waitStx) (hm : payload.length ≤ cfg.maxPayload)
    (h255 : cfg.maxPayload ≤ 255) (hw : wrong ≠ frameCrc cmd payload) :
    decodeList cfg (cfg.stx :: lenByte payload :: cmd :: (payload ++ wrong :: rest)) d c =
      (decodeList cfg rest
        { phase := .waitStx, len := lenByte payload, cmd := cmd, idx := payload.length,
          acc := frameCrc cmd payload, buf := writeMany d.buf 0 payload }
        { c with checksumErrors := satInc cfg c.checksumErrors }).map
        (ListRun.after (payload.length + 4)) := by
  rw [decodeList_consumed (core_waitStx_match hp), decodeList_body rfl hm h255, map_after_after,
    decodeList_consumed (core_awaitCrc_mismatch rfl hw), map_after_after]
  congr 2; omega

/-! ### The loop -/

/-- `DEC_STEP` with a byte in `rx`. -/
theorem decodeStep_some {s : State} (h : RingInv s.cfg.nRx s.rx) (hne : s.rx.cnt ≠ 0) :
    decodeStep s = (decodeCore (s.rx.mem.read s.rx.rd) s.cfg s.dec s.stats).map fun r =>
      (r.1, { s with rx := advance s.cfg.nRx s.rx 1, dec := r.2.1, stats := r.2.2 }) := by
  have hg := getByte_some (q := .rx) (s := s) hne h.rd_lt
  unfold decodeStep
  rw [hg]
  simp only [decodeByte_eq_core]
  rfl

theorem decodeStep_empty {s : State} (h : s.rx.cnt = 0) : decodeStep s = .ok (.empty, s) := by
  unfold decodeStep
  rw [getByte_empty (q := .rx) h]

/-- Everything `POLL`'s loop does when it is given enough steps (R146, R152). -/
theorem pollLoop_eq (n : Nat) : ∀ s : State, RingInv s.cfg.nRx s.rx → s.rx.cnt < n →
    pollLoop n s = (decodeList s.cfg (rxContent s) s.dec s.stats).map fun r =>
      endHost (.frame r.frame)
        { s with rx := advance s.cfg.nRx s.rx r.taken, dec := r.dec, stats := r.stats } := by
  induction n with
  | zero => intro s _ h; omega
  | succ n ih =>
    intro s hr hn
    by_cases h0 : s.rx.cnt = 0
    · simp only [pollLoop, decodeStep_empty h0, rxContent, content_empty h0, decodeList, Except.map,
        advance_zero hr]
    · have hc : rxContent s =
          s.rx.mem.read s.rx.rd :: content s.cfg.nRx (advance s.cfg.nRx s.rx 1) := content_get hr h0
      simp only [pollLoop, decodeStep_some hr h0, hc, decodeList]
      generalize s.rx.mem.read s.rx.rd = b
      cases hd : decodeCore b s.cfg s.dec s.stats with
      | error f => simp [Except.map]
      | ok p =>
        obtain ⟨res, d, c⟩ := p
        cases res with
        | frame f => simp [Except.map]
        | consumed =>
          have hr' := (hr.advance (k := 1) (by omega)).1
          have hi := ih { s with rx := advance s.cfg.nRx s.rx 1, dec := d, stats := c } hr'
            (by simp [advance]; omega)
          simp only [Except.map] at hi ⊢
          rw [hi]
          simp only [rxContent]
          cases decodeList s.cfg (content s.cfg.nRx (advance s.cfg.nRx s.rx 1)) d c with
          | error f => rfl
          | ok r =>
            simp [ListRun.after, advance_advance, Nat.add_comm]
        | empty =>
          exfalso
          have : ∀ (x : Except Fault (DecResult × Decoder × Stats)),
              decodeCore b s.cfg s.dec s.stats = x → x ≠ .ok (.empty, d, c) := by
            intro x hx hxe
            rw [hxe] at hx
            unfold decodeCore decodeByte at hx
            cases hp : s.dec.phase <;>
              simp only [State.resetWith, State.powerOn, hp, decodeAwaitPayload, decodeAwaitCrc] at hx
            · simp [Except.map] at hx
            · simp [Except.map] at hx
            · simp [Except.map] at hx
            · cases h1 : store s.cfg .decBuf s.dec.buf s.dec.idx b <;>
                simp [h1, Except.map] at hx
            · by_cases h2 : b = s.dec.acc
              · cases h1 : loadRange s.cfg s.dec.buf 0 s.dec.len.toNat <;>
                  simp [h1, h2, Except.map] at hx
              · simp [h2, Except.map] at hx
          exact this _ hd rfl

/-- Everything an uninterrupted `POLL` does. -/
theorem execPoll_whole {s : State} (hr : RingInv s.cfg.nRx s.rx) (ht : turnLimit s.turn = none) :
    exec .poll s = outcome ((decodeList s.cfg (rxContent s) s.dec s.stats).map fun r =>
      { s with
        rx := advance s.cfg.nRx s.rx r.taken
        dec := r.dec
        stats := r.stats
        host := .idle
        resp := { s.resp with host := some (.frame r.frame) } }) := by
  have h1 : pollSteps (beginHost .polling s) = s.rx.cnt + 1 := by simp [pollSteps, ht]
  show outcome (pollLoop (pollSteps (beginHost .polling s)) (beginHost .polling s)) = _
  rw [h1, pollLoop_eq (s.rx.cnt + 1) (beginHost .polling s) hr (Nat.lt_succ_self _)]
  rfl

end Sys2Proof.Machine
end

