-- ==== Sys2Proof/Laws/Puts.lean ====
section
/-! SUPPORT. A sequence of puts: everything the loop of `SEND` and the arrival of bytes at `rx` can do. -/

namespace Sys2Proof.Machine

/-- The ring after an accepted put. -/
def ringPut (n : Nat) (q : Ring) (b : Byte) : Ring :=
  { q with mem := q.mem.write q.wr b, wr := nextIndex n q.wr, cnt := q.cnt + 1 }

/-- The ring after accepted puts, in order. -/
def ringPuts (n : Nat) : Ring → List Byte → Ring
  | q, [] => q
  | q, b :: bs => ringPuts n (ringPut n q b) bs

/-- Everything accepted puts do to a ring. -/
theorem ringPuts_spec {n : Nat} (xs : List Byte) : ∀ {q : Ring}, RingInv n q →
    q.cnt + xs.length ≤ n →
    RingInv n (ringPuts n q xs) ∧ content n (ringPuts n q xs) = content n q ++ xs ∧
      (ringPuts n q xs).rd = q.rd ∧ (ringPuts n q xs).cnt = q.cnt + xs.length ∧
      (ringPuts n q xs).wr = (q.wr + xs.length) % n ∧
      ∀ a, (∀ j < xs.length, a ≠ (q.wr + j) % n) → (ringPuts n q xs).mem.read a = q.mem.read a := by
  induction xs with
  | nil =>
    intro q h _
    exact ⟨h, by simp [ringPuts], rfl, by simp [ringPuts],
      by simp [ringPuts, Nat.mod_eq_of_lt h.wr_lt], fun _ _ => rfl⟩
  | cons b xs ih =>
    intro q h hl
    simp only [List.length_cons] at hl
    have hne : q.cnt ≠ n := by omega
    have h1 : RingInv n (ringPut n q b) := h.put hne b
    have h2 : content n (ringPut n q b) = content n q ++ [b] := content_put h hne b
    have hwr : (ringPut n q b).wr = (q.wr + 1) % n := rfl
    obtain ⟨i1, i2, i3, i4, i5, i6⟩ := ih h1 (by simp [ringPut]; omega)
    refine ⟨i1, by simp [ringPuts, i2, h2], i3, ?_, ?_, ?_⟩
    · have hcnt : (ringPut n q b).cnt = q.cnt + 1 := rfl
      simp only [ringPuts, i4, hcnt, List.length_cons]; omega
    · simp only [ringPuts, i5, hwr, Nat.mod_add_mod, List.length_cons]; congr 1; omega
    · intro a ha
      simp only [ringPuts]
      rw [i6 a fun j hj => ?_]
      · refine read_write_other _ _ ?_
        have := ha 0 (by simp)
        rwa [Nat.add_zero, Nat.mod_eq_of_lt h.wr_lt] at this
      · have := ha (j + 1) (by simp; omega)
        rwa [hwr, Nat.mod_add_mod, Nat.add_assoc, Nat.add_comm 1 j]

theorem ringPuts_append (n : Nat) (xs ys : List Byte) (q : Ring) :
    ringPuts n q (xs ++ ys) = ringPuts n (ringPuts n q xs) ys := by
  induction xs generalizing q with
  | nil => rfl
  | cons b xs ih => simp [ringPuts, ih]

/-- A `SEND`'s loop to its end, with room for every byte (R160). -/
theorem sendLoop_room (xs : List Byte) : ∀ {s : State}, RingInv s.cfg.nTx s.tx →
    s.tx.cnt + xs.length ≤ s.cfg.nTx →
    sendLoop none xs s = .ok (endHost (.ok true) { s with tx := ringPuts s.cfg.nTx s.tx xs }) := by
  induction xs with
  | nil => intro s _ _; rfl
  | cons b xs ih =>
    intro s h hl
    simp only [List.length_cons] at hl
    have hne : s.tx.cnt ≠ s.cfg.nTx := by omega
    have hp := putByte_room (q := .tx) (b := b) (s := s) hne h.wr_lt
    simp only [sendLoop, hp, Option.map_none]
    exact ih (s := s.setRing .tx (ringPut s.cfg.nTx s.tx b)) (h.put hne b)
      (by simp [ringPut]; omega)

/-- A `SEND`'s loop that finds the buffer full (R164): the bytes that fit stay, the rest is not put. -/
theorem sendLoop_full (xs : List Byte) : ∀ {s : State}, RingInv s.cfg.nTx s.tx →
    s.cfg.nTx < s.tx.cnt + xs.length →
    sendLoop none xs s = .ok (endHost (.ok false)
      { s with tx := ringPuts s.cfg.nTx s.tx (xs.take (s.cfg.nTx - s.tx.cnt)) }) := by
  induction xs with
  | nil => intro s h hl; have := h.cnt_le; simp at hl; omega
  | cons b xs ih =>
    intro s h hl
    simp only [List.length_cons] at hl
    by_cases hne : s.tx.cnt = s.cfg.nTx
    · have hp := putByte_full (q := .tx) (b := b) (s := s) hne
      simp [sendLoop, hp, hne, ringPuts]
    · have hp := putByte_room (q := .tx) (b := b) (s := s) hne h.wr_lt
      have hlt : s.tx.cnt < s.cfg.nTx := Nat.lt_of_le_of_ne h.cnt_le hne
      obtain ⟨k, hk⟩ : ∃ k, s.cfg.nTx - s.tx.cnt = k + 1 := ⟨s.cfg.nTx - s.tx.cnt - 1, by omega⟩
      have hi := ih (s := s.setRing .tx (ringPut s.cfg.nTx s.tx b)) (h.put hne b)
        (by simp [ringPut]; omega)
      have hk' : s.cfg.nTx - (ringPut s.cfg.nTx s.tx b).cnt = k := by simp [ringPut]; omega
      simp only [sendLoop, hp, Option.map_none, hk, List.take_succ_cons]
      refine hi.trans ?_
      simp only [setRing_cfg, setRing_tx_tx, hk']
      rfl

/-- A `SEND`'s loop cut after `m` accepted puts (R61). -/
theorem sendLoop_cut (xs : List Byte) : ∀ {s : State} {m : Nat}, RingInv s.cfg.nTx s.tx →
    m < xs.length → s.tx.cnt + m ≤ s.cfg.nTx →
    sendLoop (some m) xs s = .ok (pauseHost (.sending (xs.drop m))
      { s with tx := ringPuts s.cfg.nTx s.tx (xs.take m) }) := by
  induction xs with
  | nil => intro s m _ hm; simp at hm
  | cons b xs ih =>
    intro s m h hm hl
    cases m with
    | zero => rfl
    | succ m =>
      have hne : s.tx.cnt ≠ s.cfg.nTx := by omega
      have hp := putByte_room (q := .tx) (b := b) (s := s) hne h.wr_lt
      simp only [sendLoop, hp, Option.map_some, Nat.add_sub_cancel, List.take_succ_cons,
        List.drop_succ_cons]
      exact ih (s := s.setRing .tx (ringPut s.cfg.nTx s.tx b)) (h.put hne b) (by simpa using hm)
        (by simp [ringPut]; omega)

/-- Everything a push does (R176). -/
theorem pushByte_room {b : Byte} {s : State} (hne : s.rx.cnt ≠ s.cfg.nRx)
    (hwr : s.rx.wr < s.cfg.nRx) :
    pushByte b s = .ok (true, { s with rx := ringPut s.cfg.nRx s.rx b }) := by
  simp only [pushByte, putByte_room (q := .rx) (b := b) (s := s) hne hwr]
  rfl

theorem pushByte_full {b : Byte} {s : State} (h : s.rx.cnt = s.cfg.nRx) :
    pushByte b s = .ok (false, countDropped s) := by
  simp only [pushByte, putByte_full (q := .rx) (b := b) (s := s) h]
  rfl

/-- Bytes that all fit are all accepted. -/
theorem feedBytes_room (xs : List Byte) : ∀ {s : State}, RingInv s.cfg.nRx s.rx →
    s.rx.cnt + xs.length ≤ s.cfg.nRx →
    feedBytes xs s = .ok (List.replicate xs.length true,
      { s with rx := ringPuts s.cfg.nRx s.rx xs }) := by
  induction xs with
  | nil => intro s _ _; rfl
  | cons b xs ih =>
    intro s h hl
    simp only [List.length_cons] at hl
    have hne : s.rx.cnt ≠ s.cfg.nRx := by omega
    simp only [feedBytes, pushByte_room hne h.wr_lt]
    rw [ih (s := { s with rx := ringPut s.cfg.nRx s.rx b }) (h.put hne b) (by simp [ringPut]; omega)]
    rfl

/-- Bytes offered to a full buffer are all refused and counted. -/
theorem feedBytes_full (xs : List Byte) : ∀ {s : State}, s.rx.cnt = s.cfg.nRx →
    s.stats.bytesDropped ≤ counterMax s.cfg →
    feedBytes xs s = .ok (List.replicate xs.length false,
      { s with stats := { s.stats with
        bytesDropped := min (counterMax s.cfg) (s.stats.bytesDropped + xs.length) } }) := by
  induction xs with
  | nil => intro s _ hb; simp [feedBytes, Nat.min_eq_right hb]
  | cons b xs ih =>
    intro s h hb
    simp only [feedBytes, pushByte_full h]
    rw [ih (s := countDropped s) h (satInc_le hb)]
    simp only [Except.map, countDropped, satInc_eq_min hb, List.length_cons, List.replicate_succ]
    congr 4
    omega

theorem feedBytes_append (xs ys : List Byte) : ∀ (s : State), feedBytes (xs ++ ys) s =
    match feedBytes xs s with
    | .error f => .error f
    | .ok (oks, t) => (feedBytes ys t).map fun r => (oks ++ r.1, r.2) := by
  induction xs with
  | nil => intro s; simp [feedBytes]; cases feedBytes ys s <;> rfl
  | cons b xs ih =>
    intro s
    simp only [List.cons_append, feedBytes]
    cases hp : pushByte b s with
    | error f => rfl
    | ok p =>
      obtain ⟨ok, t⟩ := p
      simp only [ih]
      cases feedBytes xs t with
      | error f => rfl
      | ok r =>
        obtain ⟨oks, u⟩ := r
        simp only [Except.map]
        cases feedBytes ys u <;> rfl

/-- Everything the arrival of bytes does: the ones that fit are accepted, the others counted. -/
theorem feedBytes_eq (xs : List Byte) {s : State} (h : RingInv s.cfg.nRx s.rx)
    (hb : s.stats.bytesDropped ≤ counterMax s.cfg) {k : Nat}
    (hk : k = min xs.length (s.cfg.nRx - s.rx.cnt)) :
    feedBytes xs s = .ok (List.replicate k true ++ List.replicate (xs.length - k) false,
      { s with
        rx := ringPuts s.cfg.nRx s.rx (xs.take k)
        stats := { s.stats with
          bytesDropped := min (counterMax s.cfg) (s.stats.bytesDropped + (xs.length - k)) } }) := by
  have hc := h.cnt_le
  by_cases hf : xs.length ≤ s.cfg.nRx - s.rx.cnt
  · have hk' : k = xs.length := by omega
    subst hk'
    rw [feedBytes_room xs h (by omega)]
    simp [Nat.min_eq_right hb]
  · have hk' : k = s.cfg.nRx - s.rx.cnt := by omega
    have hl : (xs.take k).length = k := by simp; omega
    conv_lhs => rw [← List.take_append_drop k xs]
    rw [feedBytes_append, feedBytes_room (xs.take k) h (by omega)]
    have hsp := ringPuts_spec (xs.take k) h (by omega)
    simp only
    rw [feedBytes_full (xs.drop k) (s := { s with rx := ringPuts s.cfg.nRx s.rx (xs.take k) })
      (by simp only [hsp.2.2.2.1]; omega) hb]
    simp only [Except.map, hl, List.length_drop]

end Sys2Proof.Machine
end

