-- ==== Sys2Proof/Laws/Invariant.lean ====
section
/-! SUPPORT. The shared operations keep the invariant of the block and do not fault under it; and a check that
decides the invariant on a concrete state. -/

namespace Sys2Proof.Machine

/-! ### What the invariant reads -/

/-- The invariant reads the parameters, the two buffers, the decoder and the counters, nothing else. -/
theorem State.Inv.congr {s t : State} (h : s.Inv) (hc : t.cfg = s.cfg) (hr : t.rx = s.rx)
    (ht : t.tx = s.tx) (hd : t.dec = s.dec) (hs : t.stats = s.stats) : t.Inv where
  legal := by rw [hc]; exact h.legal
  rx := by rw [hc, hr]; exact h.rx
  tx := by rw [hc, ht]; exact h.tx
  dec := by rw [hc, hd]; exact h.dec
  dropped_le := by rw [hc, hs]; exact h.dropped_le
  errors_le := by rw [hc, hs]; exact h.errors_le

theorem State.Inv.ring {s : State} (h : s.Inv) (q : Buf) : RingInv (capacity s.cfg q) (s.ring q) := by
  cases q
  · exact h.rx
  · exact h.tx

theorem State.Inv.setRing {s : State} (h : s.Inv) {q : Buf} {r : Ring}
    (hr : RingInv (capacity s.cfg q) r) : (s.setRing q r).Inv := by
  cases q
  · exact ⟨h.legal, hr, h.tx, h.dec, h.dropped_le, h.errors_le⟩
  · exact ⟨h.legal, h.rx, hr, h.dec, h.dropped_le, h.errors_le⟩

theorem State.Inv.capacity_pos {s : State} (h : s.Inv) (q : Buf) : 0 < capacity s.cfg q :=
  Nat.lt_of_le_of_lt (Nat.zero_le _) (h.ring q).rd_lt

theorem State.Inv.countDropped {s : State} (h : s.Inv) : (countDropped s).Inv :=
  ⟨h.legal, h.rx, h.tx, h.dec, satInc_le h.dropped_le, h.errors_le⟩

theorem State.Inv.present {s : State} (h : s.Inv) (p : Port) (r : Result) : (present p r s).Inv :=
  h.congr (by simp) (by simp) (by simp) (by simp) (by simp)

theorem State.Inv.giveBack {s : State} (h : s.Inv) (r : Option Result) : (giveBack r s).Inv :=
  h.congr rfl rfl rfl rfl rfl

theorem State.Inv.beginHost {s : State} (h : s.Inv) (op : HostOp) : (beginHost op s).Inv :=
  h.congr rfl rfl rfl rfl rfl

theorem State.Inv.pauseHost {s : State} (h : s.Inv) (op : HostOp) : (pauseHost op s).Inv :=
  h.congr rfl rfl rfl rfl rfl

theorem State.Inv.endHost {s : State} (h : s.Inv) (r : Result) : (endHost r s).Inv :=
  h.congr rfl rfl rfl rfl rfl

/-! ### The operations -/

/-- A put has an outcome and keeps the invariant. -/
theorem putByte_inv {s : State} (h : s.Inv) (q : Buf) (b : Byte) :
    ∃ ok t, putByte q b s = .ok (ok, t) ∧ t.Inv := by
  by_cases hf : (s.ring q).cnt = capacity s.cfg q
  · exact ⟨_, _, putByte_full hf, h⟩
  · exact ⟨_, _, putByte_room hf (h.ring q).wr_lt, h.setRing ((h.ring q).put hf b)⟩

/-- A get has an outcome and keeps the invariant. -/
theorem getByte_inv {s : State} (h : s.Inv) (q : Buf) :
    ∃ o t, getByte q s = .ok (o, t) ∧ t.Inv := by
  by_cases he : (s.ring q).cnt = 0
  · exact ⟨_, _, getByte_empty he, h⟩
  · exact ⟨_, _, getByte_some he (h.ring q).rd_lt, h.setRing ((h.ring q).get he)⟩

/-- A push has an outcome and keeps the invariant. -/
theorem pushByte_inv {s : State} (h : s.Inv) (b : Byte) :
    ∃ ok t, pushByte b s = .ok (ok, t) ∧ t.Inv := by
  obtain ⟨ok, t, ht, hi⟩ := putByte_inv h .rx b
  refine ⟨_, _, by simp only [pushByte, ht, Except.map]; rfl, ?_⟩
  cases ok
  · exact hi.countDropped
  · exact hi

theorem feedBytes_inv (xs : List Byte) : ∀ {s : State}, s.Inv →
    ∃ oks t, feedBytes xs s = .ok (oks, t) ∧ t.Inv := by
  induction xs with
  | nil => intro s h; exact ⟨_, _, rfl, h⟩
  | cons b xs ih =>
    intro s h
    obtain ⟨ok, t, ht, hi⟩ := pushByte_inv h b
    obtain ⟨oks, u, hu, hj⟩ := ih hi
    exact ⟨ok :: oks, u, by simp only [feedBytes, ht, hu, Except.map], hj⟩

/-- A `DEC_STEP` has an outcome and keeps the invariant. -/
theorem decodeStep_inv {s : State} (h : s.Inv) : ∃ r t, decodeStep s = .ok (r, t) ∧ t.Inv := by
  by_cases he : s.rx.cnt = 0
  · exact ⟨_, _, decodeStep_empty he, h⟩
  · obtain ⟨r, d, c, hc, hd, hs, -⟩ :=
      decodeCore_inv (b := s.rx.mem.read s.rx.rd) h.dec ⟨h.dropped_le, h.errors_le⟩
    refine ⟨_, _, by rw [decodeStep_some h.rx he, hc]; rfl, ?_⟩
    exact ⟨h.legal, (h.rx.advance (by omega)).1, h.tx, hd, hs.1, hs.2⟩

theorem pollLoop_inv (n : Nat) : ∀ {s : State}, s.Inv → ∃ t, pollLoop n s = .ok t ∧ t.Inv := by
  induction n with
  | zero => intro s h; exact ⟨_, rfl, h.pauseHost _⟩
  | succ n ih =>
    intro s h
    obtain ⟨r, t, ht, hi⟩ := decodeStep_inv h
    cases r with
    | empty => exact ⟨endHost (.frame none) t, by simp only [pollLoop, ht], hi.endHost _⟩
    | frame f => exact ⟨endHost (.frame (some f)) t, by simp only [pollLoop, ht], hi.endHost _⟩
    | consumed =>
      obtain ⟨u, hu, hj⟩ := ih hi
      exact ⟨u, by simp only [pollLoop, ht, hu], hj⟩

theorem sendLoop_inv (xs : List Byte) : ∀ {s : State} (limit : Option Nat), s.Inv →
    ∃ t, sendLoop limit xs s = .ok t ∧ t.Inv := by
  induction xs with
  | nil => intro s limit h; exact ⟨_, by unfold sendLoop; rfl, h.endHost _⟩
  | cons b xs ih =>
    intro s limit h
    have go : ∀ l : Option Nat, l ≠ some 0 → ∃ t, sendLoop l (b :: xs) s = .ok t ∧ t.Inv := by
      intro l hl
      obtain ⟨ok, t, ht, hi⟩ := putByte_inv h .tx b
      obtain ⟨u, hu, hj⟩ := ih (l.map (· - 1)) hi
      cases ok
      · refine ⟨endHost (.ok false) t, ?_, hi.endHost _⟩
        rcases l with _ | _ | l
        · simp only [sendLoop, ht]
        · exact absurd rfl hl
        · simp only [sendLoop, ht]
      · refine ⟨u, ?_, hj⟩
        rcases l with _ | _ | l
        · simpa only [sendLoop, ht] using hu
        · exact absurd rfl hl
        · simpa only [sendLoop, ht] using hu
    rcases limit with _ | _ | n
    · exact go none (by simp)
    · exact ⟨_, by unfold sendLoop; rfl, h.pauseHost _⟩
    · exact go (some (n + 1)) (by simp)

/-! ### Deciding the invariant on a concrete state -/

/-- `RingInv` as a computation. -/
def ringCheck (n : Nat) (q : Ring) : Bool :=
  decide (q.cnt ≤ n) && decide (q.rd < n) && decide (q.wr < n) &&
    decide (q.wr = (q.rd + q.cnt) % n) && decide (StorageInv n q.mem)

theorem ringInv_of_check {n : Nat} {q : Ring} (h : ringCheck n q = true) : RingInv n q := by
  simp only [ringCheck, Bool.and_eq_true, decide_eq_true_eq] at h
  obtain ⟨⟨⟨⟨h1, h2⟩, h3⟩, h4⟩, h5⟩ := h
  exact ⟨h1, h2, h3, h4, h5⟩

/-- `DecoderInv` as a computation. -/
def decoderCheck (maxPayload : Nat) (d : Decoder) : Bool :=
  decide (d.len.toNat ≤ maxPayload) && decide (d.idx ≤ maxPayload) &&
    decide (d.phase = .awaitLen → d.acc = 0x00) && decide (d.phase = .awaitCmd → d.acc = d.len) &&
    decide (d.phase = .awaitPayload → d.idx < d.len.toNat) &&
    decide (d.phase = .awaitCrc → d.idx = d.len.toNat) &&
    decide (d.phase = .awaitPayload ∨ d.phase = .awaitCrc →
      d.acc = xorFold (d.len :: d.cmd :: bufBytes d.buf d.idx)) &&
    decide (StorageInv maxPayload d.buf)

theorem decoderInv_of_check {n : Nat} {d : Decoder} (h : decoderCheck n d = true) :
    DecoderInv n d := by
  simp only [decoderCheck, Bool.and_eq_true, decide_eq_true_eq] at h
  obtain ⟨⟨⟨⟨⟨⟨⟨h1, h2⟩, h3⟩, h4⟩, h5⟩, h6⟩, h7⟩, h8⟩ := h
  exact ⟨h1, h2, h3, h4, h5, h6, h7, h8⟩

/-- The invariant as a computation. -/
def invCheck (s : State) : Bool :=
  decide s.cfg.Legal && ringCheck s.cfg.nRx s.rx && ringCheck s.cfg.nTx s.tx &&
    decoderCheck s.cfg.maxPayload s.dec && decide (s.stats.bytesDropped ≤ counterMax s.cfg) &&
    decide (s.stats.checksumErrors ≤ counterMax s.cfg)

theorem inv_of_check {s : State} (h : invCheck s = true) : s.Inv := by
  simp only [invCheck, Bool.and_eq_true, decide_eq_true_eq] at h
  obtain ⟨⟨⟨⟨⟨h1, h2⟩, h3⟩, h4⟩, h5⟩, h6⟩ := h
  exact ⟨h1, ringInv_of_check h2, ringInv_of_check h3, decoderInv_of_check h4, h5, h6⟩

end Sys2Proof.Machine
end

