-- ==== Sys2Proof/Laws/PerInstr.lean ====
section
/-! SUPPORT. The per-instruction family `Encodable` of LAWS.json: an instruction has a command word exactly when some
port can issue it (R87, R215). -/

namespace Sys2Proof.Laws.Encodable

open Sys2Proof.Machine (Port allowedAt)

/-- The instruction has a command word exactly when some port can issue it. -/
def Statement (i : Instr) : Prop := (encodeCommand i).isSome = true ↔ ∃ p : Port, allowedAt p i = true

theorem reset : Statement .reset := by simp [Statement, encodeCommand, allowedAt]
theorem rbInit (q : Buf) : Statement (.rbInit q) := by simp [Statement, encodeCommand, allowedAt]
theorem rbPut (q : Buf) (b : Byte) : Statement (.rbPut q b) := by
  simp [Statement, encodeCommand, allowedAt]
theorem rbGet (q : Buf) : Statement (.rbGet q) := by simp [Statement, encodeCommand, allowedAt]
theorem rbCount (q : Buf) : Statement (.rbCount q) := by simp [Statement, encodeCommand, allowedAt]
theorem ckXor (xs : List Byte) : Statement (.ckXor xs) := by
  simp [Statement, encodeCommand, allowedAt]
theorem decStep : Statement .decStep := by simp [Statement, encodeCommand, allowedAt]
theorem rxPush (b : Byte) : Statement (.rxPush b) :=
  iff_of_true rfl ⟨.rxin, rfl⟩
theorem rxCount : Statement .rxCount := iff_of_true rfl ⟨.rxin, rfl⟩
theorem txPop : Statement .txPop := iff_of_true rfl ⟨.txout, rfl⟩
theorem txCount : Statement .txCount := iff_of_true rfl ⟨.txout, rfl⟩
theorem poll : Statement .poll := iff_of_true rfl ⟨.host, rfl⟩
theorem send (cmd : Byte) (payload : List Byte) : Statement (.send cmd payload) :=
  iff_of_true rfl ⟨.host, rfl⟩
theorem sendAck : Statement .sendAck := iff_of_true rfl ⟨.host, rfl⟩
theorem sendNack (r : Byte) : Statement (.sendNack r) := iff_of_true rfl ⟨.host, rfl⟩
theorem stats : Statement .stats := iff_of_true rfl ⟨.host, rfl⟩
theorem reservedOpselect (c : Byte) : Statement (.reservedOpselect c) :=
  iff_of_true rfl ⟨.host, rfl⟩
theorem frame (cmd : Byte) (payload : List Byte) : Statement (.frame cmd payload) := by
  simp [Statement, encodeCommand, allowedAt]
theorem frameAck : Statement .frameAck := by simp [Statement, encodeCommand, allowedAt]
theorem frameNack (r : Byte) : Statement (.frameNack r) := by
  simp [Statement, encodeCommand, allowedAt]

end Sys2Proof.Laws.Encodable
end

