-- ==== Sys2Proof/Tests/Slice0.lean ====
section
/-! SUPPORT. Tests: ill-formed terms, words written out from the spec's encodings, one step of each operation on the
vectors of spec/95_test_vectors.md, and for each statement with hypotheses a state and operands that meet them. -/

namespace Sys2Proof.Tests

open Sys2Proof Sys2Proof.Machine

/-! ### Small states -/

/-- `CFG_REF` with `N_RX = N_TX = n`. -/
def cfgN (n : Nat) : Config := { Config.ref with nRx := n, nTx := n }

/-- The bytes `bs` from index 0 on, every other byte unlisted. -/
def cells (bs : List Byte) : Memory :=
  ((List.range bs.length).zip bs).foldl (fun m c => m.write c.1 c.2) []

/-- A buffer that holds `bs` from index 0 on. -/
def ringOf (n : Nat) (bs : List Byte) : Ring where
  rd := 0
  wr := bs.length % n
  cnt := bs.length
  mem := cells bs

/-- A block with buffers of eight bytes, in a whole HOST turn. -/
def block (rxBytes txBytes : List Byte) : State :=
  { State.resetWith (cfgN 8) with
    rx := ringOf 8 rxBytes
    tx := ringOf 8 txBytes
    turn := .host none }

/-- The same block with the decoder registers `{phase, len, cmd, idx, acc}` and the scratch bytes `buf`. -/
def blockAt (phase : Phase) (len cmd : Byte) (idx : Nat) (acc : Byte) (buf rxBytes : List Byte) : State :=
  { block rxBytes [] with
    dec := { phase := phase, len := len, cmd := cmd, idx := idx, acc := acc,
             buf := cells buf } }

/-- The state after one instruction, where it answers a next state. -/
def after (i : Instr) (s : State) : Option State :=
  match exec i s with
  | .next t => some t
  | _ => none

/-- The state after one step. -/
def stepped (s : State) : Option State :=
  match step s with
  | .next t => some t
  | _ => none

/-- The refusal an instruction ends in. -/
def refusal (i : Instr) (s : State) : Option Refusal :=
  match exec i s with
  | .refused r => some r
  | _ => none

/-! ### WellFormed: an ill-formed term for each check (R163, R167, R89, R74) -/

theorem test_wf_send_too_long : wellFormed Config.ref (.send 0x10 (List.replicate 17 0x00)) = false := by
  decide
theorem test_wf_send_longest : wellFormed Config.ref (.send 0x10 (List.replicate 16 0x00)) = true := by
  decide
theorem test_wf_sendNack_no_payload :
    wellFormed { Config.ref with maxPayload := 0 } (.sendNack 0x01) = false := by decide
theorem test_wf_reserved_is_assigned : wellFormed Config.ref (.reservedOpselect 0x08) = false := by
  decide
theorem test_wf_frame_too_long :
    wellFormed Config.ref (.frame 0x10 (List.replicate 17 0x00)) = false := by decide
theorem test_wf_frameNack_no_payload :
    wellFormed { Config.ref with maxPayload := 0 } (.frameNack 0x01) = false := by decide

/-! ### Decoding: words written out from the table of R87 and from R71, R81 -/

theorem test_decode_rxPush : decode [0b00000000, 0b10100101] = .ok (.rxPush 0xA5, []) := by decide
theorem test_decode_rxCount : decode [0b00000001] = .ok (.rxCount, []) := by decide
theorem test_decode_txPop : decode [0b00000010] = .ok (.txPop, []) := by decide
theorem test_decode_txCount : decode [0b00000011] = .ok (.txCount, []) := by decide
theorem test_decode_poll : decode [0b00000100] = .ok (.poll, []) := by decide
theorem test_decode_send :
    decode [0b00000101, 0b00100000, 0b00000010, 0b00000001, 0b00000010, 0b00000100] =
      .ok (.send 0x20 [0x01, 0x02], [0x04]) := by decide
theorem test_decode_send_no_payload :
    decode [0b00000101, 0b00110000, 0b00000000] = .ok (.send 0x30 [], []) := by decide
theorem test_decode_sendAck : decode [0b00000110] = .ok (.sendAck, []) := by decide
theorem test_decode_sendNack : decode [0b00000111, 0b11111111] = .ok (.sendNack 0xFF, []) := by decide
theorem test_decode_stats : decode [0b00001000] = .ok (.stats, []) := by decide
theorem test_decode_reserved_low : decode [0b00001001] = .ok (.reservedOpselect 0x09, []) := by decide
/-- The high nibble is not zero: not `RX_COUNT`. -/
theorem test_decode_reserved_high : decode [0b00010001] = .ok (.reservedOpselect 0x11, []) := by decide
theorem test_decode_truncated : decode [0b00000101, 0x10, 0x02, 0x50] = .error .truncated := by decide

/-- S1: `02 01 10 50 41`. -/
theorem test_decodeWire_frame :
    decodeWire Config.ref [0x02, 0x01, 0x10, 0x50, 0x41] = .ok (.frame 0x10 [0x50], []) := by decide
/-- S9: `02 00 06 06`. -/
theorem test_decodeWire_ack :
    decodeWire Config.ref [0x02, 0x00, 0x06, 0x06] = .ok (.frameAck, []) := by decide
/-- S9: `02 01 15 01 15`. -/
theorem test_decodeWire_nack :
    decodeWire Config.ref [0x02, 0x01, 0x15, 0x01, 0x15] = .ok (.frameNack 0x01, []) := by decide
/-- S2: the corrupted `CRC`. -/
theorem test_decodeWire_bad_crc :
    decodeWire Config.ref [0x02, 0x01, 0x10, 0x50, 0x40] = .error .badCrc := by decide
theorem test_decodeWire_bad_len : decodeWire Config.ref [0x02, 0x11, 0x00, 0x00] = .error .lenAboveMax := by
  decide
theorem test_decodeWire_not_stx : decodeWire Config.ref [0x03, 0x00, 0x06, 0x06] = .error .notStx := by
  decide

/-- The table's row `SEND`, its first byte only: `cmd` and `len` are zero bits. -/
theorem test_table_send : decodeTableWord 8 0x05 = some (.send 0x00 []) := by decide
/-- The table's row `RX_PUSH`: byte 1 is bits 15 to 8. -/
theorem test_table_rxPush : decodeTableWord 16 0xA500 = some (.rxPush 0xA5) := by decide

/-! ### The ring buffer (vectors of 95_test_vectors.md 2.1) -/

/-- V-RB6: the indices and the count go to zero, storage is untouched. -/
theorem test_rbInit :
    (after (.rbInit .rx) { State.resetWith (cfgN 4) with
      rx := { rd := 2, wr := 1, cnt := 3, mem := (ringOf 4 [0x05, 0x06, 0x03, 0x04]).mem } }).map State.rx =
    some { rd := 0, wr := 0, cnt := 0, mem := [(0, 0x05), (1, 0x06), (2, 0x03), (3, 0x04)] } := by decide
/-- V-RB4: the write index wraps from 3 to 0. -/
theorem test_rbPut_wraps :
    (after (.rbPut .rx 0x04) { State.resetWith (cfgN 4) with
      rx := { rd := 2, wr := 3, cnt := 1, mem := (ringOf 4 [0x01, 0x02, 0x03]).mem } }).map State.rx =
    some { rd := 2, wr := 0, cnt := 2, mem := [(0, 0x01), (1, 0x02), (2, 0x03), (3, 0x04)] } := by decide
/-- V-RB4: the put into the full buffer returns 0. -/
theorem test_rbPut_full :
    (after (.rbPut .rx 0x07) { State.resetWith (cfgN 4) with
      rx := { rd := 2, wr := 2, cnt := 4, mem := (ringOf 4 [0x05, 0x06, 0x03, 0x04]).mem } }).map
      (fun t => (t.rx.mem.read 2, t.rx.cnt, t.resp.internal)) =
    some (0x03, 4, some (.ok false)) := by decide
/-- V-RB5: the second get returns 04 and the read index wraps from 3 to 0. -/
theorem test_rbGet_wraps :
    (after (.rbGet .tx) { State.resetWith (cfgN 4) with
      tx := { rd := 3, wr := 2, cnt := 3, mem := (ringOf 4 [0x05, 0x06, 0x03, 0x04]).mem } }).map
      (fun t => (t.tx.rd, t.tx.cnt, t.resp.internal)) =
    some (0, 2, some (.byte (some 0x04))) := by decide
/-- V-RB5: the get from the empty buffer. -/
theorem test_rbGet_none :
    (after (.rbGet .rx) (block [] [0x11])).map (fun t => t.resp.internal) = some (some (.byte none)) := by
  decide
/-- V-RB2: the count is 3. -/
theorem test_rbCount :
    (after (.rbCount .rx) (block [0x01, 0x02, 0x03] [0x09])).map (fun t => t.resp.internal) =
      some (some (.count 3)) := by decide

/-! ### The checksum (vectors 2.2) -/

/-- V-CK5. -/
theorem test_ckXor :
    (after (.ckXor [0x03, 0x40, 0x0A, 0x0B, 0x0C]) (block [] [])).map (fun t => t.resp.internal) =
      some (some (.checksum 0x4E)) := by decide
/-- V-CK11. -/
theorem test_ckXor_long :
    xorFold [0x10, 0x77, 0x00, 0x01, 0x02, 0x03, 0x04, 0x05, 0x06, 0x07, 0x08, 0x09, 0x0A, 0x0B, 0x0C,
      0x0D, 0x0E, 0x0F] = 0x67 := by decide

/-! ### The decoder (vectors 2.3) -/

/-- V-DEC5: an invalid length counts once, and the registers keep their values. -/
theorem test_decStep_invalid_len :
    (after .decStep (blockAt .awaitLen 0x03 0x40 3 0x00 [] [0x11])).map
      (fun t => (t.dec, t.stats, t.resp.internal)) =
    some ({ phase := .waitStx, len := 0x03, cmd := 0x40, idx := 3, acc := 0x00, buf := [] },
      { bytesDropped := 1, checksumErrors := 0 }, some (.dec .consumed)) := by decide
/-- V-DEC13. -/
theorem test_decStep_frame :
    (after .decStep (blockAt .awaitCrc 0x02 0x20 2 0x21 [0x01, 0x02] [0x21])).map
      (fun t => (t.dec.phase, t.stats, t.resp.internal)) =
    some (.waitStx, { bytesDropped := 0, checksumErrors := 0 },
      some (.dec (.frame { command := 0x20, length := 0x02, payload := [0x01, 0x02] }))) := by decide
/-- S2: one `POLL` over the corrupted frame and the good one behind it. -/
theorem test_poll_resync :
    (after .poll { State.resetWith (cfgN 9) with
      rx := ringOf 9 [0x02, 0x01, 0x10, 0x50, 0x40, 0x02, 0x00, 0x30, 0x30] }).map
      (fun t => (t.resp.host, t.stats, t.rx.cnt)) =
    some (some (.frame (some { command := 0x30, length := 0x00, payload := [] })),
      { bytesDropped := 0, checksumErrors := 1 }, 0) := by decide
/-- V-DEC23: a stray `STX` parks the decoder. -/
theorem test_poll_parked :
    (after .poll (block [0x02, 0x02, 0x00, 0x30, 0x30] [])).map (fun t => (t.resp.host, t.dec, t.stats)) =
    some (some (.frame none),
      { phase := .awaitCrc, len := 0x02, cmd := 0x00, idx := 2, acc := 0x02, buf := [(0, 0x30), (1, 0x30)] },
      { bytesDropped := 0, checksumErrors := 0 }) := by decide

/-! ### The encoder (vectors 2.4) -/

/-- V-E13: the frame is cut after two bytes. -/
theorem test_send_truncated :
    (after (.send 0x10 [0x50]) (block [] [0x11, 0x12, 0x13, 0x14, 0x15, 0x16])).map
      (fun t => (content 8 t.tx, t.resp.host, t.stats)) =
    some ([0x11, 0x12, 0x13, 0x14, 0x15, 0x16, 0x02, 0x01], some (.ok false),
      { bytesDropped := 0, checksumErrors := 0 }) := by decide
/-- V-E3. -/
theorem test_send :
    (after (.send 0x20 [0x01, 0x02]) (block [] [])).map (fun t => (content 8 t.tx, t.resp.host)) =
    some ([0x02, 0x02, 0x20, 0x01, 0x02, 0x21], some (.ok true)) := by decide
/-- V-E7. -/
theorem test_sendAck :
    (after .sendAck (block [] [])).map (fun t => (content 8 t.tx, t.resp.host)) =
    some ([0x02, 0x00, 0x06, 0x06], some (.ok true)) := by decide
/-- V-E10. -/
theorem test_sendNack :
    (after (.sendNack 0xFF) (block [] [])).map (fun t => (content 8 t.tx, t.resp.host)) =
    some ([0x02, 0x01, 0x15, 0xFF, 0xEB], some (.ok true)) := by decide

/-! ### The ports, the wire and reset (vectors 2.5) -/

/-- V-P1: the put into the full buffer is refused and counted. -/
theorem test_rxPush_full :
    (after (.rxPush 0x22) (block [0x01, 0x02, 0x03, 0x04, 0x05, 0x06, 0x07, 0x11] [])).map
      (fun t => (t.rx.cnt, t.stats, t.resp.rxin)) =
    some (8, { bytesDropped := 1, checksumErrors := 0 }, some (.ok false)) := by decide
/-- V-P5: a push does not decode. -/
theorem test_rxPush :
    (after (.rxPush 0xAA) (block [] [])).map (fun t => (content 8 t.rx, t.stats, t.resp.rxin)) =
    some ([0xAA], { bytesDropped := 0, checksumErrors := 0 }, some (.ok true)) := by decide
theorem test_rxCount :
    (after .rxCount (block [0x01, 0x02] [0x09])).map (fun t => t.resp.rxin) = some (some (.count 2)) := by
  decide
/-- V-P2. -/
theorem test_txPop :
    (after .txPop (block [] [0x02, 0x00, 0x06, 0x06])).map (fun t => (content 8 t.tx, t.resp.txout)) =
    some ([0x00, 0x06, 0x06], some (.byte (some 0x02))) := by decide
/-- V-P2, on TXOUT. -/
theorem test_txCount :
    (after .txCount { block [] [0x02, 0x00, 0x06, 0x06] with turn := .txout }).map
      (fun t => (t.resp.txout, t.resp.host)) = some (some (.count 4), none) := by decide
/-- P3: `TX_COUNT` in the HOST's program. -/
theorem test_txCount_host :
    (after .txCount (block [] [0x02, 0x01, 0x10, 0x50, 0x41])).map (fun t => (t.resp.txout, t.resp.host)) =
      some (none, some (.count 5)) := by decide
/-- V-P4. -/
theorem test_stats :
    (after .stats { block [] [] with stats := { bytesDropped := 4, checksumErrors := 1 } }).map
      (fun t => (t.stats, t.resp.host)) =
    some ({ bytesDropped := 4, checksumErrors := 1 }, some (.stats 4 1)) := by decide
/-- R89. -/
theorem test_reservedOpselect : refusal (.reservedOpselect 0x09) (block [] []) = some (.reservedOpselect 0x09) := by
  decide
/-- S1: the bytes of the frame arrive in wire order. -/
theorem test_frame :
    (after (.frame 0x10 [0x50]) (block [] [])).map (fun t => (content 8 t.rx, t.resp.rxin)) =
    some ([0x02, 0x01, 0x10, 0x50, 0x41], some (.oks [true, true, true, true, true])) := by decide
/-- S9, with room for two of the four bytes (R176). -/
theorem test_frameAck_full :
    (after .frameAck (block [0x01, 0x02, 0x03, 0x04, 0x05, 0x07] [])).map
      (fun t => (content 8 t.rx, t.stats.bytesDropped, t.resp.rxin)) =
    some ([0x01, 0x02, 0x03, 0x04, 0x05, 0x07, 0x02, 0x00], 2, some (.oks [true, true, false, false])) := by
  decide
/-- S9. -/
theorem test_frameNack :
    (after (.frameNack 0x02) (block [] [])).map (fun t => content 8 t.rx) =
    some [0x02, 0x01, 0x15, 0x02, 0x16] := by decide
/-- V-P3: a reset in the middle of a frame, the storage kept. -/
theorem test_reset :
    (after .reset { blockAt .awaitPayload 0x02 0x20 1 0x23 [0x01] [0x01, 0x02, 0x03, 0x04, 0x05] with
      stats := { bytesDropped := 7, checksumErrors := 2 } }).map
      (fun t => (t.rx.cnt, t.rx.mem.read 4, t.dec, t.stats)) =
    some (0, 0x05,
      { phase := .waitStx, len := 0x00, cmd := 0x00, idx := 0, acc := 0x00, buf := [(0, 0x01)] },
      { bytesDropped := 0, checksumErrors := 0 }) := by decide

/-- R28, R43, R45: a storage byte has a value from reset on, any value, and a read of it is no fault. -/
theorem test_reset_storage_has_a_value :
    load Config.ref .rxMem State.reset.rx.mem 63 = .ok 0x00 ∧
    load Config.ref .decBuf (State.powerOn Config.ref [] [] [(15, 0xA5)]).dec.buf 15 = .ok 0xA5 := by decide
/-- Writing what an unlisted index reads as takes the cell out: equal memories are equal data. -/
theorem test_memory_is_canonical : Memory.write [(1, 0x11), (2, 0x22)] 1 0x00 = [(2, 0x22)] := by decide

/-! ### Steps -/

/-- The first step after reset runs the word placed for it. -/
theorem test_step_runs_word :
    (stepped (State.reset.withFetchWord 16 0xA500)).map (fun t => (t.rx.cnt, t.resp.rxin)) =
      some (1, some (.ok true)) := by decide
/-- P6, schedule B: a `POLL` cut after two `DEC_STEP`s stays in progress. -/
theorem test_step_cuts_poll :
    (stepped { block [0x02, 0x00] [] with hostQ := [0x04], sched := [.host (some 2), .rxin] }).map
      (fun t => (t.host, t.resp.host, t.dec.phase, t.sched)) =
    some (.polling, none, .awaitCmd, [.rxin]) := by decide

/-! ### Witnesses: each theorem meets the hypotheses of the statement it is named after -/

/-- Sixteen payload bytes, the longest `CFG_REF` admits. -/
def longest : List Byte := List.replicate 16 0x02

/-- Both buffers full, one byte short of full, and empty. -/
def fullBlock : State := block [0x01, 0x02, 0x03, 0x04, 0x05, 0x06, 0x07, 0x08] [0x01, 0x02, 0x03, 0x04, 0x05, 0x06, 0x07, 0x08]
def sevenBlock : State := block [0x01, 0x02, 0x03, 0x04, 0x05, 0x06, 0x07] [0x01, 0x02, 0x03, 0x04, 0x05, 0x06, 0x07]
def emptyBlock : State := block [] []

theorem witness_fullBlock_inv : fullBlock.Inv := inv_of_check (by decide)
theorem witness_sevenBlock_inv : sevenBlock.Inv := inv_of_check (by decide)
theorem witness_emptyBlock_inv : emptyBlock.Inv := inv_of_check (by decide)

theorem witness_DecodeOfEncodedCommand :
    Config.ref.Legal ∧ wellFormed Config.ref (.send 0x05 longest) = true ∧
      encodeCommand (.send 0x05 longest) = some (0x05 :: 0x05 :: 0x10 :: longest) := by decide
theorem witness_DecodedCommandIsItsEncoding :
    decode [0x05, 0x20, 0x00, 0x09] = .ok (.send 0x20 [], [0x09]) := by decide
theorem witness_DecodeOfEncodedWireFrame :
    Config.ref.Legal ∧ wellFormed Config.ref (.frame 0x06 []) = true ∧
      encodeWire Config.ref (.frame 0x06 []) = some [0x02, 0x00, 0x06, 0x06] ∧
      canonicalRow Config.ref (.frame 0x06 []) = .frameAck := by decide
/-- Both sides hold of the longest frame. -/
theorem witness_WireFrameAcceptedIffValid :
    Config.ref.Legal ∧
      decodeWire Config.ref (0x02 :: 0x10 :: 0x77 :: (longest ++ [0x67])) = .ok (.frame 0x77 longest, []) := by
  decide
theorem witness_ReservedOpselectRefused_nibble :
    (0x10 : Byte).toNat / 16 ≠ 0 ∧ { emptyBlock with sched := [.rxin], rxinQ := [0x10] }.rxinQ = [0x10] := by
  decide
theorem witness_ReservedOpselectRefused_code :
    9 ≤ (0x09 : Byte).toNat % 16 ∧ 9 ≤ (0x0F : Byte).toNat % 16 ∧ emptyBlock.host = .idle := by decide
theorem witness_OutOfDomainRefused :
    Config.ref.maxPayload < (List.replicate 17 (0x00 : Byte)).length ∧
      { Config.ref with maxPayload := 0 }.maxPayload = 0 := by decide
theorem witness_CkXorIsBytewiseParity : [(0x02 : Byte), 0x20, 0x02, 0x01].Perm [0x02, 0x20, 0x01, 0x02] := by
  decide
theorem witness_RbInitEmpties : 1 ≤ capacity fullBlock.cfg .rx := by decide

theorem witness_RbPut_full : fullBlock.Inv ∧ (fullBlock.ring .rx).cnt = capacity fullBlock.cfg .rx :=
  ⟨witness_fullBlock_inv, by decide⟩
theorem witness_RbPut_last : sevenBlock.Inv ∧ (sevenBlock.ring .tx).cnt < capacity sevenBlock.cfg .tx :=
  ⟨witness_sevenBlock_inv, by decide⟩
theorem witness_RbGet_empty : emptyBlock.Inv ∧ (emptyBlock.ring .rx).cnt = 0 :=
  ⟨witness_emptyBlock_inv, by decide⟩
theorem witness_RbGet_full : fullBlock.Inv ∧
    bufContent fullBlock .tx = 0x01 :: [0x02, 0x03, 0x04, 0x05, 0x06, 0x07, 0x08] ∧
    (fullBlock.ring .tx).cnt = capacity fullBlock.cfg .tx := ⟨witness_fullBlock_inv, by decide, by decide⟩
/-- The last byte is taken. -/
theorem witness_RbGet_last : (block [0x0A] []).Inv ∧ bufContent (block [0x0A] []) .rx = 0x0A :: [] :=
  ⟨inv_of_check (by decide), by decide⟩

theorem witness_DecStepWaitStx_match : (block [0x02] []).Inv ∧ (block [0x02] []).dec.phase = .waitStx ∧
    (block [0x02] []).rx.cnt ≠ 0 ∧ (block [0x02] []).rx.mem.read (block [0x02] []).rx.rd = 0x02 ∧
    (0x02 : Byte) = (block [0x02] []).cfg.stx := ⟨inv_of_check (by decide), by decide⟩
theorem witness_DecStepWaitStx_drop : (block [0xAA] []).Inv ∧ (block [0xAA] []).dec.phase = .waitStx ∧
    (block [0xAA] []).rx.cnt ≠ 0 ∧ (block [0xAA] []).rx.mem.read (block [0xAA] []).rx.rd = 0xAA ∧
    (0xAA : Byte) ≠ (block [0xAA] []).cfg.stx := ⟨inv_of_check (by decide), by decide⟩

/-- V-DEC4 and V-DEC5: `LEN` at its bound and one above. -/
def atLen (b : Byte) : State := blockAt .awaitLen 0x00 0x00 0 0x00 [] [b]
theorem witness_DecStepAwaitLen_valid : (atLen 0x10).Inv ∧ (atLen 0x10).dec.phase = .awaitLen ∧
    (atLen 0x10).rx.cnt ≠ 0 ∧ (atLen 0x10).rx.mem.read (atLen 0x10).rx.rd = 0x10 ∧
    (0x10 : Byte).toNat ≤ (atLen 0x10).cfg.maxPayload := ⟨inv_of_check (by decide), by decide⟩
theorem witness_DecStepAwaitLen_invalid : (atLen 0x11).Inv ∧ (atLen 0x11).dec.phase = .awaitLen ∧
    (atLen 0x11).rx.cnt ≠ 0 ∧ (atLen 0x11).rx.mem.read (atLen 0x11).rx.rd = 0x11 ∧
    (atLen 0x11).cfg.maxPayload < (0x11 : Byte).toNat := ⟨inv_of_check (by decide), by decide⟩

/-- V-DEC8 and V-DEC9. -/
def atCmd (len : Byte) : State := blockAt .awaitCmd len 0x00 7 len [] [0x10]
theorem witness_DecStepAwaitCmd_payload : (atCmd 0x01).Inv ∧ (atCmd 0x01).dec.phase = .awaitCmd ∧
    (atCmd 0x01).rx.cnt ≠ 0 ∧ (atCmd 0x01).rx.mem.read (atCmd 0x01).rx.rd = 0x10 ∧
    0 < (atCmd 0x01).dec.len.toNat := ⟨inv_of_check (by decide), by decide⟩
theorem witness_DecStepAwaitCmd_noPayload : (atCmd 0x00).Inv ∧ (atCmd 0x00).dec.phase = .awaitCmd ∧
    (atCmd 0x00).rx.cnt ≠ 0 ∧ (atCmd 0x00).rx.mem.read (atCmd 0x00).rx.rd = 0x10 ∧
    (atCmd 0x00).dec.len = 0x00 := ⟨inv_of_check (by decide), by decide⟩

/-- V-DEC11: a byte more to come. -/
def atFirst : State := blockAt .awaitPayload 0x02 0x20 0 0x22 [] [0x01]
/-- V-DEC12: the last payload byte. -/
def atLast : State := blockAt .awaitPayload 0x02 0x20 1 0x23 [0x01] [0x02]
theorem witness_DecStepAwaitPayload_more : atFirst.Inv ∧ atFirst.dec.phase = .awaitPayload ∧
    atFirst.rx.cnt ≠ 0 ∧ atFirst.rx.mem.read atFirst.rx.rd = 0x01 ∧
    atFirst.dec.idx + 1 < atFirst.dec.len.toNat := ⟨inv_of_check (by decide), by decide⟩
theorem witness_DecStepAwaitPayload_last : atLast.Inv ∧ atLast.dec.phase = .awaitPayload ∧
    atLast.rx.cnt ≠ 0 ∧ atLast.rx.mem.read atLast.rx.rd = 0x02 ∧
    atLast.dec.idx + 1 = atLast.dec.len.toNat := ⟨inv_of_check (by decide), by decide⟩

/-- V-DEC13 (`b = 0x21`), and the same state before a wrong byte. -/
def atCrc (b : Byte) : State := blockAt .awaitCrc 0x02 0x20 2 0x21 [0x01, 0x02] [b]
theorem witness_DecStepAwaitCrcMatch : (atCrc 0x21).Inv ∧ (atCrc 0x21).dec.phase = .awaitCrc ∧
    (atCrc 0x21).rx.cnt ≠ 0 ∧
    (atCrc 0x21).rx.mem.read (atCrc 0x21).rx.rd = (atCrc 0x21).dec.acc :=
  ⟨inv_of_check (by decide), by decide⟩
theorem witness_DecStepAwaitCrcMismatch : (atCrc 0x02).Inv ∧ (atCrc 0x02).dec.phase = .awaitCrc ∧
    (atCrc 0x02).rx.cnt ≠ 0 ∧ (atCrc 0x02).rx.mem.read (atCrc 0x02).rx.rd = 0x02 ∧
    (0x02 : Byte) ≠ (atCrc 0x02).dec.acc := ⟨inv_of_check (by decide), by decide⟩

/-- In the middle of a frame, `rx` empty (S7). -/
theorem witness_PollOnEmpty : (blockAt .awaitPayload 0x01 0x10 0 0x11 [] []).rx.cnt = 0 ∧
    turnLimit (blockAt .awaitPayload 0x01 0x10 0 0x11 [] []).turn ≠ some 0 := by decide
theorem witness_PollReturnsFrameOrDrains : fullBlock.Inv ∧ turnLimit fullBlock.turn = none :=
  ⟨witness_fullBlock_inv, by decide⟩

/-- S1 with bytes behind the `CRC`. -/
def frameBlock : State := block [0x02, 0x01, 0x10, 0x50, 0x41, 0x02, 0x00] []
theorem witness_PollReturnsFirstFrame : frameBlock.Inv ∧ turnLimit frameBlock.turn = none ∧
    frameBlock.dec.phase = .waitStx ∧ [(0x50 : Byte)].length ≤ frameBlock.cfg.maxPayload ∧
    rxContent frameBlock = wireBytes frameBlock.cfg 0x10 [0x50] ++ [0x02, 0x00] :=
  ⟨inv_of_check (by decide), by decide⟩

/-- Noise before S3's frame. -/
def noisyBlock : State := block [0xAA, 0x55, 0x02, 0x00, 0x30, 0x30] []
/-- The state its `POLL` leaves. -/
def noisyAfter : State := (after .poll noisyBlock).getD noisyBlock
theorem witness_PolledFrameWasOnTheWire : noisyBlock.Inv ∧ turnLimit noisyBlock.turn = none ∧
    noisyBlock.dec.phase = .waitStx ∧ exec .poll noisyBlock = .next noisyAfter ∧
    noisyAfter.resp.host =
      some (.frame (some { command := 0x30, length := 0x00, payload := [] })) :=
  ⟨inv_of_check (by decide), by decide, by decide, rfl, by decide⟩

/-- S4. -/
def noiseBlock : State := block [0x00, 0x01, 0xFF, 0x10, 0x50] []
theorem witness_PollDropsNoise : noiseBlock.Inv ∧ turnLimit noiseBlock.turn = none ∧
    noiseBlock.dec.phase = .waitStx ∧ noiseBlock.cfg.stx ∉ rxContent noiseBlock :=
  ⟨inv_of_check (by decide), by decide⟩

/-- `02 00 30 31 02 00 30 30`. -/
def corruptedBlock : State := block [0x02, 0x00, 0x30, 0x31, 0x02, 0x00, 0x30, 0x30] []
theorem witness_PollSkipsCorruptedFrame : corruptedBlock.Inv ∧ turnLimit corruptedBlock.turn = none ∧
    corruptedBlock.dec.phase = .waitStx ∧ (0x31 : Byte) ≠ frameCrc 0x30 [] ∧
    rxContent corruptedBlock = (corruptedBlock.cfg.stx :: lenByte [] :: 0x30 :: ([] ++ [0x31])) ++
      wireBytes corruptedBlock.cfg 0x30 [] ++ [] := ⟨inv_of_check (by decide), by decide⟩

/-- S1 with the lowest bit of the `CRC` inverted (S2), and with the highest bit of `CMD` inverted. -/
def flippedCrc : State := block [0x02, 0x01, 0x10, 0x50, 0x40] []
def flippedCmd : State := block [0x02, 0x01, 0x90, 0x50, 0x41] []
theorem witness_FlippedBitDetected_crc : flippedCrc.Inv ∧ turnLimit flippedCrc.turn = none ∧
    flippedCrc.dec.phase = .waitStx ∧ [(0x50 : Byte)].length ≤ flippedCrc.cfg.maxPayload ∧
    2 < [(0x50 : Byte)].length + 2 ∧ 0 < 8 ∧
    rxContent flippedCrc = flippedCrc.cfg.stx :: lenByte [0x50] ::
      (0x10 :: ([0x50] ++ [frameCrc 0x10 [0x50]])).modify 2 (fun b => b ^^^ BitVec.twoPow 8 0) :=
  ⟨inv_of_check (by decide), by decide⟩
theorem witness_FlippedBitDetected_cmd : flippedCmd.Inv ∧ turnLimit flippedCmd.turn = none ∧
    flippedCmd.dec.phase = .waitStx ∧ [(0x50 : Byte)].length ≤ flippedCmd.cfg.maxPayload ∧
    0 < [(0x50 : Byte)].length + 2 ∧ 7 < 8 ∧
    rxContent flippedCmd = flippedCmd.cfg.stx :: lenByte [0x50] ::
      (0x10 :: ([0x50] ++ [frameCrc 0x10 [0x50]])).modify 0 (fun b => b ^^^ BitVec.twoPow 8 7) :=
  ⟨inv_of_check (by decide), by decide⟩

theorem witness_PollWorkBounded : noiseBlock.Inv ∧ noiseBlock.rx.cnt + 1 ≤ 6 :=
  ⟨inv_of_check (by decide), by decide⟩

/-- P6, schedule B, the first cut. -/
def cutBlock : State := { block [0x02, 0x00, 0x30, 0x30] [] with turn := .host (some 2) }
/-- The state after the cut. -/
def cutAfter : State := (after .poll cutBlock).getD cutBlock
theorem witness_CutPollResumes : cutBlock.turn = .host (some 2) ∧ exec .poll cutBlock = .next cutAfter ∧
    cutAfter.host = .polling := ⟨rfl, rfl, by decide⟩

/-- The same content elsewhere in the ring, with stale bytes around it. -/
def shifted : Machine.Ring where
  rd := 6
  wr := 2
  cnt := 4
  mem := [(0, 0x30), (1, 0x30), (2, 0xEE), (6, 0x02)]
theorem witness_PollSeesOnlyContent :
    (block [0x02, 0x00, 0x30, 0x30] []).Inv ∧ RingInv (block [0x02, 0x00, 0x30, 0x30] []).cfg.nRx shifted ∧
    turnLimit (block [0x02, 0x00, 0x30, 0x30] []).turn = none ∧
    content (block [0x02, 0x00, 0x30, 0x30] []).cfg.nRx shifted =
      rxContent (block [0x02, 0x00, 0x30, 0x30] []) :=
  ⟨inv_of_check (by decide), ringInv_of_check (by decide), by decide⟩

/-- S1 in the middle: the payload byte collected and its `CRC` in `rx`, kept at other indices, and with a stale scratch
byte. -/
def viewA : State := blockAt .awaitCrc 0x01 0x10 1 0x41 [0x50] [0x41]
def viewB : State :=
  { blockAt .awaitCrc 0x01 0x10 1 0x41 [0x50, 0xEE] [] with
    rx := { rd := 7, wr := 0, cnt := 1, mem := [(2, 0x99), (7, 0x41)] } }
theorem witness_UnwrittenBytesAreUnobservable : viewA.Inv ∧ viewB.Inv ∧ SameView viewA viewB ∧ viewA ≠ viewB ∧
    exec .poll viewA = .next ((after .poll viewA).getD viewA) :=
  ⟨inv_of_check (by decide), inv_of_check (by decide),
    ⟨by decide, by decide, by decide, by decide⟩, by decide, rfl⟩

theorem witness_PushAndDecStepCommute : sevenBlock.Inv ∧ sevenBlock.rx.cnt ≠ 0 ∧
    sevenBlock.rx.cnt ≠ sevenBlock.cfg.nRx := ⟨witness_sevenBlock_inv, by decide⟩
/-- P1: `02 01 10`, then `50 41`; and eight bytes, an exact fit. -/
theorem witness_ChunkInvariance : emptyBlock.Inv ∧ turnLimit emptyBlock.turn = none ∧
    emptyBlock.rx.cnt + [(0x02 : Byte), 0x01, 0x10].length + [(0x50 : Byte), 0x41, 0x02, 0x00, 0x30].length ≤
      emptyBlock.cfg.nRx := ⟨witness_emptyBlock_inv, by decide⟩

/-- V-E14: an exact fit. -/
theorem witness_SendAppendsFrame : (block [] [0x01, 0x02, 0x03]).Inv ∧
    turnLimit (block [] [0x01, 0x02, 0x03]).turn = none ∧
    [(0x50 : Byte)].length ≤ (block [] [0x01, 0x02, 0x03]).cfg.maxPayload ∧
    (block [] [0x01, 0x02, 0x03]).tx.cnt + [(0x50 : Byte)].length + 4 ≤ (block [] [0x01, 0x02, 0x03]).cfg.nTx :=
  ⟨inv_of_check (by decide), by decide⟩
/-- V-E12 and V-E13's shape: full already, and one byte of room. -/
theorem witness_SendTruncates_full : fullBlock.Inv ∧ turnLimit fullBlock.turn = none ∧
    ([] : List Byte).length ≤ fullBlock.cfg.maxPayload ∧
    fullBlock.cfg.nTx < fullBlock.tx.cnt + ([] : List Byte).length + 4 ∧
    fullBlock.tx.cnt = fullBlock.cfg.nTx := ⟨witness_fullBlock_inv, by decide⟩
theorem witness_SendTruncates_room : sevenBlock.Inv ∧ turnLimit sevenBlock.turn = none ∧
    [(0x50 : Byte)].length ≤ sevenBlock.cfg.maxPayload ∧
    sevenBlock.cfg.nTx < sevenBlock.tx.cnt + [(0x50 : Byte)].length + 4 :=
  ⟨witness_sevenBlock_inv, by decide⟩
theorem witness_SendAckIsZeroPayloadFrame : (block [] [0x01, 0x02, 0x03, 0x04]).Inv ∧
    turnLimit (block [] [0x01, 0x02, 0x03, 0x04]).turn = none ∧
    (block [] [0x01, 0x02, 0x03, 0x04]).tx.cnt + 4 ≤ (block [] [0x01, 0x02, 0x03, 0x04]).cfg.nTx :=
  ⟨inv_of_check (by decide), by decide⟩
theorem witness_SendNackCarriesReason : (block [] [0x01, 0x02, 0x03]).Inv ∧
    turnLimit (block [] [0x01, 0x02, 0x03]).turn = none ∧ 1 ≤ (block [] [0x01, 0x02, 0x03]).cfg.maxPayload ∧
    (block [] [0x01, 0x02, 0x03]).tx.cnt + 5 ≤ (block [] [0x01, 0x02, 0x03]).cfg.nTx :=
  ⟨inv_of_check (by decide), by decide⟩

/-- A `SEND` cut after three puts. -/
def cutSend : State := { block [] [0x01, 0x02, 0x03] with turn := .host (some 3) }
/-- The state after the cut. -/
def cutSendAfter : State := (after (.send 0x10 [0x50]) cutSend).getD cutSend
theorem witness_CutSendResumes : cutSend.turn = .host (some 3) ∧
    exec (.send 0x10 [0x50]) cutSend = .next cutSendAfter ∧ cutSendAfter.host = .sending [0x50, 0x41] :=
  ⟨rfl, rfl, by decide⟩
theorem witness_CutSendHasPutItsFirstBytes : cutSend.Inv ∧ cutSend.turn = .host (some 3) ∧
    [(0x50 : Byte)].length ≤ cutSend.cfg.maxPayload ∧ 3 < [(0x50 : Byte)].length + 4 ∧
    cutSend.tx.cnt + 3 ≤ cutSend.cfg.nTx := ⟨inv_of_check (by decide), by decide⟩
theorem witness_SendThenPollRoundTrip : emptyBlock.Inv ∧ (State.resetWith (cfgN 5)).Inv ∧
    turnLimit emptyBlock.turn = none ∧ turnLimit (State.resetWith (cfgN 5)).turn = none ∧
    emptyBlock.tx.cnt = 0 ∧ (State.resetWith (cfgN 5)).rx.cnt = 0 ∧
    (State.resetWith (cfgN 5)).dec.phase = .waitStx ∧ (State.resetWith (cfgN 5)).cfg.stx = emptyBlock.cfg.stx ∧
    [(0x50 : Byte)].length + 4 ≤ emptyBlock.cfg.nTx ∧
    [(0x50 : Byte)].length + 4 ≤ (State.resetWith (cfgN 5)).cfg.nRx ∧
    [(0x50 : Byte)].length ≤ (State.resetWith (cfgN 5)).cfg.maxPayload :=
  ⟨witness_emptyBlock_inv, inv_of_check (by decide), by decide⟩

theorem witness_RxPush_full : fullBlock.Inv ∧ fullBlock.rx.cnt = fullBlock.cfg.nRx :=
  ⟨witness_fullBlock_inv, by decide⟩
theorem witness_RxPush_last : sevenBlock.Inv ∧ sevenBlock.rx.cnt < sevenBlock.cfg.nRx :=
  ⟨witness_sevenBlock_inv, by decide⟩
theorem witness_CountsArePureReads : fullBlock.Inv ∧ countPort fullBlock.turn = .host ∧
    countPort { fullBlock with turn := .txout }.turn = .txout := ⟨witness_fullBlock_inv, by decide⟩
theorem witness_TxPop_empty : emptyBlock.Inv ∧ emptyBlock.tx.cnt = 0 := ⟨witness_emptyBlock_inv, by decide⟩
theorem witness_TxPop_full : fullBlock.Inv ∧
    txContent fullBlock = 0x01 :: [0x02, 0x03, 0x04, 0x05, 0x06, 0x07, 0x08] :=
  ⟨witness_fullBlock_inv, by decide⟩
/-- A frame of five bytes at a buffer with room for one; each of the three rows. -/
theorem witness_WireFrameArrives : sevenBlock.Inv ∧ [(0x50 : Byte)].length ≤ sevenBlock.cfg.maxPayload ∧
    [(0x50 : Byte)].length + 4 > sevenBlock.cfg.nRx - sevenBlock.rx.cnt ∧
    ((Instr.frameAck = .frameAck) ∧ (0x06 : Byte) = sevenBlock.cfg.opAck) ∧
    ((Instr.frameNack 0x01 = .frameNack 0x01) ∧ (0x15 : Byte) = sevenBlock.cfg.opNack) :=
  ⟨witness_sevenBlock_inv, by decide⟩
theorem witness_ArrivedFrameIsPolled : emptyBlock.Inv ∧ turnLimit emptyBlock.turn = none ∧
    emptyBlock.dec.phase = .waitStx ∧ emptyBlock.rx.cnt = 0 ∧
    [(0x50 : Byte), 0x51, 0x52, 0x53].length ≤ emptyBlock.cfg.maxPayload ∧
    [(0x50 : Byte), 0x51, 0x52, 0x53].length + 4 ≤ emptyBlock.cfg.nRx := ⟨witness_emptyBlock_inv, by decide⟩

/-- V-P3's state: outside the decoder invariant too. -/
theorem witness_ResetEstablishesInvariant :
    (blockAt .awaitPayload 0x02 0x20 5 0x00 [0x01] [0x01, 0x02]).cfg.Legal ∧
    StorageInv 8 (blockAt .awaitPayload 0x02 0x20 5 0x00 [0x01] [0x01, 0x02]).rx.mem ∧
    StorageInv 8 (blockAt .awaitPayload 0x02 0x20 5 0x00 [0x01] [0x01, 0x02]).tx.mem ∧
    StorageInv 16 (blockAt .awaitPayload 0x02 0x20 5 0x00 [0x01] [0x01, 0x02]).dec.buf ∧
    turnLimit (blockAt .awaitPayload 0x02 0x20 5 0x00 [0x01] [0x01, 0x02]).turn = none := by decide
/-- The smallest buffers, powered on with other bytes than the model names. -/
theorem witness_ResetStateMeetsInvariant : (cfgN 1).Legal ∧ StorageInv (cfgN 1).nRx [(0, 0xFF)] ∧
    StorageInv (cfgN 1).nTx [(0, 0x5A)] ∧ StorageInv (cfgN 1).maxPayload [(0, 0x01), (15, 0xFF)] := by decide
theorem witness_ExecKeepsInvariant : cutBlock.Inv ∧ exec .poll cutBlock = .next cutAfter :=
  ⟨inv_of_check (by decide), rfl⟩

/-- A HOST turn that begins a cut `POLL`. -/
def stepBlock : State :=
  { block [0x02, 0x00] [] with hostQ := [0x04], sched := [.host (some 2), .rxin] }
theorem witness_StepKeepsInvariants : stepBlock.Inv ∧ HostInv stepBlock ∧
    step stepBlock = .next ((stepped stepBlock).getD stepBlock) :=
  ⟨inv_of_check (by decide), ⟨fun h => absurd rfl h, by decide⟩, rfl⟩
theorem witness_StepRunsDecodedCommand_host : stepBlock.sched = .host (some 2) :: [.rxin] ∧
    stepBlock.host = .idle ∧ decode (stepBlock.queue .host) = .ok (.poll, []) ∧
    allowedAt .host .poll = true := by decide
theorem witness_StepRunsDecodedCommand_rxin :
    { emptyBlock with sched := [.rxin], rxinQ := [0x00, 0xA5, 0x01] }.sched = .rxin :: [] ∧
    decode ({ emptyBlock with sched := [.rxin], rxinQ := [0x00, 0xA5, 0x01] }.queue .rxin) =
      .ok (.rxPush 0xA5, [0x01]) ∧ allowedAt .rxin (.rxPush 0xA5) = true := by decide
theorem witness_StepRunsDecodedCommand_txout :
    decode ({ emptyBlock with sched := [.txout], txoutQ := [0x02] }.queue .txout) = .ok (.txPop, []) ∧
    allowedAt .txout .txPop = true := by decide
/-- One state for each clause. -/
theorem witness_StepWithoutACommand :
    { emptyBlock with sched := [.reset] }.sched = .reset :: [] ∧
    ({ emptyBlock with sched := [.host none], host := .polling }.sched = .host none :: [] ∧
      { emptyBlock with sched := [.host none], host := .polling }.host = .polling) ∧
    { emptyBlock with sched := [.host (some 0)], host := .sending [0x41] }.host = .sending [0x41] ∧
    ({ emptyBlock with sched := [.rxin] }.rxinQ = [] ∧ { emptyBlock with sched := [.txout] }.txoutQ = [] ∧
      { emptyBlock with sched := [.host none] }.hostQ = [] ∧ emptyBlock.host = .idle) ∧
    emptyBlock.sched = [] := by decide
theorem witness_CountersNeverDecrease :
    step { noiseBlock with sched := [.host none], hostQ := [0x04] } =
      .next ((stepped { noiseBlock with sched := [.host none], hostQ := [0x04] }).getD noiseBlock) ∧
    ((stepped { noiseBlock with sched := [.host none], hostQ := [0x04] }).getD noiseBlock).stats.bytesDropped
      = 5 ∧
    ∀ turns, ({ noiseBlock with sched := [.host none], hostQ := [0x04] } : State).sched ≠ .reset :: turns :=
  ⟨rfl, by decide, by intro turns h; cases h⟩
theorem witness_OnlyTheirWritersChangeRegisters :
    exec (.rxPush 0x11) sevenBlock = .next ((after (.rxPush 0x11) sevenBlock).getD sevenBlock) := rfl
/-- A turn of each port. -/
theorem witness_PortsAreSeparate :
    step stepBlock = .next ((stepped stepBlock).getD stepBlock) ∧
    step { fullBlock with sched := [.rxin], rxinQ := [0x00, 0xA5] } =
      .next ((stepped { fullBlock with sched := [.rxin], rxinQ := [0x00, 0xA5] }).getD fullBlock) ∧
    step { fullBlock with sched := [.txout], txoutQ := [0x02] } =
      .next ((stepped { fullBlock with sched := [.txout], txoutQ := [0x02] }).getD fullBlock) :=
  ⟨rfl, rfl, rfl⟩

end Sys2Proof.Tests
end

section
/-! SUPPORT. The arrival of a wire frame (log 9): what `exec` does on the three wire-frame rows, and the statement
`WireFrameArrives`. -/

namespace Sys2Proof.Machine

/-- The row `i` is the wire frame with this `CMD` and this payload: `FRAME` itself, or one of the two replies of
R81. -/
def IsWireFrame (cfg : Config) (i : Instr) (cmd : Byte) (payload : List Byte) : Prop :=
  i = .frame cmd payload ∨ (i = .frameAck ∧ cmd = cfg.opAck ∧ payload = []) ∨
    (∃ r, i = .frameNack r ∧ cmd = cfg.opNack ∧ payload = [r])

/-- All three wire-frame rows are one arrival. -/
theorem exec_of_isWireFrame {s : State} {i : Instr} {cmd : Byte} {payload : List Byte}
    (h : IsWireFrame s.cfg i cmd payload) : exec i s = arriveFrame cmd payload s := by
  rcases h with rfl | ⟨rfl, rfl, rfl⟩ | ⟨r, rfl, rfl, rfl⟩
  · rfl
  · rfl
  · rfl

/-- Everything an arrival does: the `k` bytes that fit are put into `rx`, the others counted, and the `ok` bits
presented on RXIN. -/
theorem arriveFrame_eq {s : State} (h : s.Inv) (cmd : Byte) {payload : List Byte}
    (hp : payload.length ≤ s.cfg.maxPayload) {k : Nat}
    (hk : k = min (payload.length + 4) (s.cfg.nRx - s.rx.cnt)) :
    arriveFrame cmd payload s = .next
      { s with
        rx := ringPuts s.cfg.nRx s.rx ((wireBytes s.cfg cmd payload).take k)
        stats := { s.stats with
          bytesDropped :=
            min (counterMax s.cfg) (s.stats.bytesDropped + (payload.length + 4 - k)) }
        resp := { s.resp with rxin := some (.oks
          (List.replicate k true ++ List.replicate (payload.length + 4 - k) false)) } } := by
  have hfits : payloadFits s.cfg payload = true := decide_eq_true hp
  have hfeed := feedBytes_eq (wireBytes s.cfg cmd payload) h.rx h.dropped_le
    (k := k) (by rwa [length_wireBytes])
  rw [length_wireBytes] at hfeed
  rw [arriveFrame, if_pos hfits, hfeed]
  rfl

/-- Settles O47: the ring after the arrival is `rx` with the `k` bytes that fit put into it, and `ringPuts_spec` says
what those puts do to it. -/
theorem wireFrameArrives : Obligations.WireFrameArrives := by
  intro s i cmd payload hs hp hi
  obtain ⟨k, hk⟩ : ∃ k, k = min (payload.length + 4) (s.cfg.nRx - s.rx.cnt) := ⟨_, rfl⟩
  have hlen : ((wireBytes s.cfg cmd payload).take k).length = k := by
    rw [List.length_take, length_wireBytes]; omega
  have hroom : s.rx.cnt + k ≤ s.cfg.nRx := by
    have := hs.rx.cnt_le
    omega
  obtain ⟨-, hcontent, hrd, -, -, hframe⟩ :=
    ringPuts_spec ((wireBytes s.cfg cmd payload).take k) hs.rx (by rwa [hlen])
  rw [hlen] at hframe
  exact ⟨_, k, hk, (exec_of_isWireFrame hi).trans (arriveFrame_eq hs cmd hp hk), hcontent, hrd, hframe⟩

end Sys2Proof.Machine
end

section
/-! SUPPORT. The invariant of the block under `exec` and `step` (R24, R31, R33, R34, R38, R61): a run of any instruction
from a state that meets it ends in such a state or in a refusal, never in a fault. -/

namespace Sys2Proof.Machine

/-! ### The state after reset -/

theorem ringInv_reset {n : Nat} {m : Memory} (hn : 0 < n) (hm : StorageInv n m) : RingInv n (Ring.reset m) :=
  RingInv.init (q := Ring.reset m) hn hm

theorem decoderInv_reset {n : Nat} {m : Memory} (hm : StorageInv n m) : DecoderInv n (Decoder.reset m) where
  len_le := Nat.zero_le _
  idx_le := Nat.zero_le _
  acc_len := by simp [Decoder.reset]
  acc_cmd := by simp [Decoder.reset]
  idx_payload := by simp [Decoder.reset]
  idx_crc := by simp [Decoder.reset]
  acc_fold := by simp [Decoder.reset]
  storage := hm

/-- A HOST with nothing in progress meets the invariant of the composite. -/
theorem HostInv.of_idle {s : State} (h : s.host = .idle) : HostInv s where
  quiet := fun hne => absurd h hne
  rest_ne := by simp [h]

theorem HostInv.congr {s t : State} (h : HostInv s) (hh : t.host = s.host) (hr : t.resp.host = s.resp.host) :
    HostInv t where
  quiet := by rw [hh, hr]; exact h.quiet
  rest_ne := by rw [hh]; exact h.rest_ne

theorem powerOn_inv {c : Config} {rxMem txMem decBuf : Memory} (hc : c.Legal) (hr : StorageInv c.nRx rxMem)
    (ht : StorageInv c.nTx txMem) (hb : StorageInv c.maxPayload decBuf) :
    (State.powerOn c rxMem txMem decBuf).Inv where
  legal := hc
  rx := ringInv_reset hc.1 hr
  tx := ringInv_reset hc.2.1 ht
  dec := decoderInv_reset hb
  dropped_le := Nat.zero_le _
  errors_le := Nat.zero_le _

/-- Settles O51: reset empties the rings and the decoder whatever their storage holds, and the HOST is idle. -/
theorem resetStateMeetsInvariant : Obligations.ResetStateMeetsInvariant := by
  refine ⟨fun c rxMem txMem decBuf hc hr ht hb => ⟨powerOn_inv hc hr ht hb, HostInv.of_idle rfl⟩, rfl, ?_⟩
  decide

/-! ### Every instruction -/

/-- The block ends in a state that meets the invariant, or refuses. -/
def Answers (o : Host.Outcome State Fault Refusal) : Prop :=
  (∃ t, o = .next t ∧ t.Inv) ∨ ∃ r, o = .refused r

theorem answers_next {t : State} (h : t.Inv) : Answers (.next t) := .inl ⟨t, rfl, h⟩

theorem answers_refused (r : Refusal) : Answers (.refused r) := .inr ⟨r, rfl⟩

theorem Answers.inv {o : Host.Outcome State Fault Refusal} {t : State} (h : Answers o) (ho : o = .next t) :
    t.Inv := by
  rcases h with ⟨u, hu, hi⟩ | ⟨r, hr⟩
  · cases hu.symm.trans ho
    exact hi
  · cases hr.symm.trans ho

theorem answers_outcome {x : Except Fault State} (h : ∃ t, x = .ok t ∧ t.Inv) : Answers (outcome x) := by
  obtain ⟨t, rfl, hi⟩ := h
  exact answers_next hi

/-- An operation that answers with a value and a state, followed by an update that keeps the invariant. -/
theorem answers_outcome_map {α : Type} {x : Except Fault (α × State)} {g : α × State → State}
    (h : ∃ a t, x = .ok (a, t) ∧ t.Inv) (hg : ∀ a t, t.Inv → (g (a, t)).Inv) : Answers (outcome (x.map g)) := by
  obtain ⟨a, t, rfl, hi⟩ := h
  exact answers_next (hg a t hi)

theorem State.Inv.initRing {s : State} (h : s.Inv) (q : Buf) : (initRing q s).Inv :=
  h.setRing (RingInv.init (h.capacity_pos q) (h.ring q).storage)

theorem execReset_answers {s : State} (h : s.Inv) : Answers (execReset s) := by
  have hr := (h.initRing .rx).initRing .tx
  exact answers_next
    { legal := h.legal
      rx := hr.rx
      tx := hr.tx
      dec := decoderInv_reset h.dec.storage
      dropped_le := Nat.zero_le _
      errors_le := Nat.zero_le _ }

theorem resumePoll_answers {s : State} (h : s.Inv) : Answers (resumePoll s) :=
  answers_outcome (pollLoop_inv _ h)

theorem resumeSend_answers {s : State} (h : s.Inv) (rest : List Byte) : Answers (resumeSend rest s) :=
  answers_outcome (sendLoop_inv rest _ h)

theorem sendFrame_answers {s : State} (h : s.Inv) (cmd : Byte) (payload : List Byte) :
    Answers (sendFrame cmd payload s) := by
  unfold sendFrame
  split
  · exact resumeSend_answers (h.beginHost _) _
  · exact answers_refused _

theorem arriveFrame_answers {s : State} (h : s.Inv) (cmd : Byte) (payload : List Byte) :
    Answers (arriveFrame cmd payload s) := by
  unfold arriveFrame
  split
  · exact answers_outcome_map (feedBytes_inv _ h) fun _ _ hi => hi.present _ _
  · exact answers_refused _

/-- From a state that meets the invariant every instruction answers (R200). -/
theorem exec_answers {s : State} (h : s.Inv) (i : Instr) : Answers (exec i s) := by
  cases i with
  | reset => exact execReset_answers h
  | rbInit q => exact answers_next ((h.initRing q).giveBack none)
  | rbPut q b => exact answers_outcome_map (putByte_inv h q b) fun _ _ hi => hi.giveBack _
  | rbGet q => exact answers_outcome_map (getByte_inv h q) fun _ _ hi => hi.giveBack _
  | rbCount q => exact answers_next (h.giveBack _)
  | ckXor xs => exact answers_next (h.giveBack _)
  | decStep => exact answers_outcome_map (decodeStep_inv h) fun _ _ hi => hi.giveBack _
  | rxPush b => exact answers_outcome_map (pushByte_inv h b) fun _ _ hi => hi.present _ _
  | rxCount => exact answers_next (h.present _ _)
  | txPop => exact answers_outcome_map (getByte_inv h .tx) fun _ _ hi => hi.present _ _
  | txCount => exact answers_next (h.present _ _)
  | poll => exact resumePoll_answers (h.beginHost .polling)
  | send cmd payload => exact sendFrame_answers h cmd payload
  | sendAck => exact sendFrame_answers h s.cfg.opAck []
  | sendNack r => exact sendFrame_answers h s.cfg.opNack [r]
  | stats => exact answers_next (h.present _ _)
  | reservedOpselect c => exact answers_refused _
  | frame cmd payload => exact arriveFrame_answers h cmd payload
  | frameAck => exact arriveFrame_answers h s.cfg.opAck []
  | frameNack r => exact arriveFrame_answers h s.cfg.opNack [r]

/-- Settles O52: each instruction is made of shared operations that keep the invariant. -/
theorem execKeepsInvariant : Obligations.ExecKeepsInvariant :=
  fun i _ _ hs h => (exec_answers hs i).inv h

/-! ### Every step -/

theorem State.Inv.setQueue {s : State} (h : s.Inv) (p : Port) (bs : List Byte) : (s.setQueue p bs).Inv :=
  h.congr (by simp) (by simp) (by simp) (by simp) (by simp)

theorem serveCommand_answers {s : State} (h : s.Inv) (p : Port) : Answers (serveCommand p s) := by
  unfold serveCommand
  split
  · exact answers_next h
  · exact answers_refused _
  · split
    · exact exec_answers (h.setQueue _ _) _
    · exact answers_refused _

theorem serveHost_answers {s : State} (h : s.Inv) : Answers (serveHost s) := by
  unfold serveHost
  split
  · exact serveCommand_answers h .host
  · exact resumePoll_answers h
  · exact resumeSend_answers h _

theorem serveSlot_answers {s : State} (h : s.Inv) (slot : Slot) : Answers (serveSlot slot s) := by
  cases slot with
  | reset => exact exec_answers h .reset
  | rxin => exact serveCommand_answers h .rxin
  | txout => exact serveCommand_answers h .txout
  | host limit => exact serveHost_answers h

/-- From a state that meets the invariant every step answers. -/
theorem step_answers {s : State} (h : s.Inv) : Answers (step s) := by
  unfold step serveNext
  split
  · exact answers_next h
  · next slot rest _ =>
    exact serveSlot_answers (s := { s with sched := rest, turn := slot }) (h.congr rfl rfl rfl rfl rfl) slot

end Sys2Proof.Machine
end

section
/-! SUPPORT. What each instruction can change, from every state (R21, R42): one lemma for each shared way to end, then
who writes which register, and the HOST's composite. -/

namespace Sys2Proof.Machine

/-! ### The ways to end -/

theorem outcome_map_next {α : Type} {x : Except Fault (α × State)} {g : α × State → State} {t : State}
    (h : outcome (x.map g) = .next t) : ∃ a u, x = .ok (a, u) ∧ t = g (a, u) := by
  cases x with
  | error f => cases h
  | ok r =>
    cases h
    exact ⟨r.1, r.2, rfl, rfl⟩

/-- A put writes the write side of its buffer. -/
theorem putByte_frame {q : Buf} {b : Byte} {s t : State} {ok : Bool} (h : putByte q b s = .ok (ok, t)) :
    ∃ r, t = s.setRing q r ∧ r.rd = (s.ring q).rd := by
  rcases putByte_cases h with ⟨-, rfl, -⟩ | ⟨-, -, -, rfl⟩
  · exact ⟨t.ring q, (setRing_ring t q).symm, rfl⟩
  · exact ⟨_, rfl, rfl⟩

/-- A get writes the read side of its buffer. -/
theorem getByte_frame {q : Buf} {s t : State} {o : Option Byte} (h : getByte q s = .ok (o, t)) :
    ∃ r, t = s.setRing q r ∧ r.wr = (s.ring q).wr ∧ r.mem = (s.ring q).mem := by
  rcases getByte_cases h with ⟨-, rfl, -⟩ | ⟨_, -, -, -, -, rfl⟩
  · exact ⟨t.ring q, (setRing_ring t q).symm, rfl, rfl⟩
  · exact ⟨_, rfl, rfl, rfl⟩

/-- A `POLL` writes the read side of `rx`, the decoder, the counters, and the HOST's composite and result. -/
theorem execPoll_frame {s t : State} (h : exec .poll s = .next t) :
    ∃ rx d c ho rh,
      t = { s with rx := rx, dec := d, stats := c, host := ho, resp := { s.resp with host := rh } } ∧
      rx.wr = s.rx.wr ∧ rx.mem = s.rx.mem := by
  obtain ⟨rx, d, c, ho, rh, ht, hwr, hmem, -⟩ := pollLoop_frame _ (outcome_next h)
  exact ⟨rx, d, c, ho, rh, ht, hwr, hmem⟩

/-- The `SEND` family writes the write side of `tx`, and the HOST's composite and result. -/
theorem sendFrame_frame {cmd : Byte} {payload : List Byte} {s t : State}
    (h : sendFrame cmd payload s = .next t) :
    ∃ tx ho rh, t = { s with tx := tx, host := ho, resp := { s.resp with host := rh } } ∧
      tx.rd = s.tx.rd := by
  unfold sendFrame at h
  split at h
  · obtain ⟨tx, ho, rh, ht, hrd, -⟩ := sendLoop_frame _ (outcome_next h)
    exact ⟨tx, ho, rh, ht, hrd⟩
  · cases h

/-- The arrival of a wire frame writes the write side of `rx`, `bytes_dropped` and RXIN's result. -/
theorem arriveFrame_frame {cmd : Byte} {payload : List Byte} {s t : State}
    (h : arriveFrame cmd payload s = .next t) :
    ∃ rx c r, t = { s with rx := rx, stats := c, resp := { s.resp with rxin := r } } ∧ rx.rd = s.rx.rd ∧
      c.checksumErrors = s.stats.checksumErrors := by
  unfold arriveFrame at h
  split at h
  · obtain ⟨oks, u, hu, rfl⟩ := outcome_map_next h
    obtain ⟨rx, c, rfl, hrd, -, -, hc⟩ := feedBytes_frame _ hu
    exact ⟨rx, c, _, rfl, hrd, hc⟩
  · cases h

/-! ### Who writes which register -/

/-- Settles O58: the frame of each instruction names the registers it leaves alone. -/
theorem onlyTheirWritersChangeRegisters : Obligations.OnlyTheirWritersChangeRegisters := by
  intro i s t h
  cases i with
  | reset | rbCount | ckXor | rxCount | txCount | stats => cases h; simp [initRing, State.setRing]
  | reservedOpselect => cases h
  | rbInit q => cases h; cases q <;> simp [initRing]
  | rbPut q b =>
    obtain ⟨ok, u, hu, rfl⟩ := outcome_map_next h
    obtain ⟨r, rfl, hrd⟩ := putByte_frame hu
    cases q
    · simpa using hrd
    · simpa using hrd
  | rbGet q =>
    obtain ⟨o, u, hu, rfl⟩ := outcome_map_next h
    obtain ⟨r, rfl, hwr, hmem⟩ := getByte_frame hu
    cases q
    · simpa using ⟨hwr, hmem⟩
    · simpa using ⟨hwr, hmem⟩
  | decStep =>
    obtain ⟨a, u, hu, rfl⟩ := outcome_map_next h
    obtain ⟨rx, d, c, rfl, hwr, hmem, -⟩ := decodeStep_frame hu
    simp [hwr, hmem]
  | rxPush b =>
    obtain ⟨ok, u, hu, rfl⟩ := outcome_map_next h
    obtain ⟨rx, c, rfl, hrd, -, -, hc⟩ := pushByte_frame hu
    simp [hrd, hc]
  | txPop =>
    obtain ⟨o, u, hu, rfl⟩ := outcome_map_next h
    obtain ⟨r, rfl, hwr, hmem⟩ := getByte_frame hu
    simpa using ⟨hwr, hmem⟩
  | poll =>
    obtain ⟨rx, d, c, ho, rh, rfl, hwr, hmem⟩ := execPoll_frame h
    simp [hwr, hmem]
  | send | sendAck | sendNack =>
    simp only [exec, execSend, execSendAck, execSendNack] at h
    obtain ⟨tx, ho, rh, rfl, hrd⟩ := sendFrame_frame h
    simp [hrd]
  | frame | frameAck | frameNack =>
    simp only [exec, execFrame, execFrameAck, execFrameNack] at h
    obtain ⟨rx, c, r, rfl, hrd, hc⟩ := arriveFrame_frame h
    simp [hrd, hc]

/-! ### The HOST's composite -/

/-- A `POLL` gone on with before anything is presented ends, or stays in progress with nothing presented. -/
theorem resumePoll_hostInv {s t : State} (hs : s.resp.host = none) (h : resumePoll s = .next t) : HostInv t := by
  obtain ⟨rx, d, c, ho, rh, rfl, -, -, -, -, -, hho⟩ := pollLoop_frame _ (outcome_next h)
  rcases hho with rfl | ⟨rfl, rfl⟩
  · exact HostInv.of_idle rfl
  · exact ⟨fun _ => hs, by simp⟩

/-- A `SEND` gone on with ends, or stays in progress with a byte left to put and nothing presented. -/
theorem resumeSend_hostInv {rest : List Byte} {s t : State} (hs : s.resp.host = none)
    (h : resumeSend rest s = .next t) : HostInv t := by
  obtain ⟨tx, ho, rh, rfl, -, -, hho⟩ := sendLoop_frame _ (outcome_next h)
  rcases hho with rfl | ⟨⟨y, ys, rfl⟩, rfl⟩
  · exact HostInv.of_idle rfl
  · exact ⟨fun _ => hs, by simp⟩

theorem sendFrame_hostInv {cmd : Byte} {payload : List Byte} {s t : State}
    (h : sendFrame cmd payload s = .next t) : HostInv t := by
  unfold sendFrame at h
  split at h
  · exact resumeSend_hostInv rfl h
  · cases h

/-- Served to an idle HOST, every instruction leaves the HOST idle or begins a composite that meets its invariant. -/
theorem exec_hostInv {i : Instr} {s t : State} (hs : s.host = .idle) (h : exec i s = .next t) : HostInv t := by
  cases i with
  | reset => cases h; exact HostInv.of_idle rfl
  | rbInit | rbCount | ckXor | rxCount | txCount | stats =>
    cases h; exact HostInv.of_idle (by simpa [initRing] using hs)
  | reservedOpselect => cases h
  | rbPut q b =>
    obtain ⟨ok, u, hu, rfl⟩ := outcome_map_next h
    obtain ⟨r, rfl, -⟩ := putByte_frame hu
    exact HostInv.of_idle (by simpa using hs)
  | rbGet | txPop =>
    obtain ⟨o, u, hu, rfl⟩ := outcome_map_next h
    obtain ⟨r, rfl, -⟩ := getByte_frame hu
    exact HostInv.of_idle (by simpa using hs)
  | decStep =>
    obtain ⟨a, u, hu, rfl⟩ := outcome_map_next h
    obtain ⟨rx, d, c, rfl, -⟩ := decodeStep_frame hu
    exact HostInv.of_idle hs
  | rxPush b =>
    obtain ⟨ok, u, hu, rfl⟩ := outcome_map_next h
    obtain ⟨rx, c, rfl, -⟩ := pushByte_frame hu
    exact HostInv.of_idle hs
  | poll => exact resumePoll_hostInv rfl h
  | send | sendAck | sendNack =>
    simp only [exec, execSend, execSendAck, execSendNack] at h
    exact sendFrame_hostInv h
  | frame | frameAck | frameNack =>
    simp only [exec, execFrame, execFrameAck, execFrameNack] at h
    obtain ⟨rx, c, r, rfl, -⟩ := arriveFrame_frame h
    exact HostInv.of_idle hs

theorem present_resp_host {p : Port} {r : Result} {s : State} (hp : p ≠ .host) :
    (present p r s).resp.host = s.resp.host := by
  cases p with
  | rxin | txout => rfl
  | host => exact absurd rfl hp

/-- An operation of RXIN or of TXOUT leaves the HOST's composite and its result alone. -/
theorem exec_keeps_host {p : Port} {i : Instr} {s t : State} (hp : p ≠ .host)
    (ha : allowedAt p i = true) (hc : countPort s.turn ≠ .host) (h : exec i s = .next t) :
    t.host = s.host ∧ t.resp.host = s.resp.host := by
  cases i with
  | rxPush b =>
    obtain ⟨ok, u, hu, rfl⟩ := outcome_map_next h
    obtain ⟨rx, c, rfl, -⟩ := pushByte_frame hu
    exact ⟨rfl, rfl⟩
  | rxCount => cases h; exact ⟨rfl, rfl⟩
  | txPop =>
    obtain ⟨o, u, hu, rfl⟩ := outcome_map_next h
    obtain ⟨r, rfl, -⟩ := getByte_frame hu
    exact ⟨rfl, rfl⟩
  | txCount =>
    cases h
    exact ⟨present_host _ _ _, present_resp_host hc⟩
  | reservedOpselect => cases h
  | _ => simp [allowedAt, hp] at ha

theorem serveCommand_keeps_host {p : Port} {s t : State} (hp : p ≠ .host) (hc : countPort s.turn ≠ .host)
    (h : serveCommand p s = .next t) : t.host = s.host ∧ t.resp.host = s.resp.host := by
  unfold serveCommand at h
  split at h
  · cases h; exact ⟨rfl, rfl⟩
  · cases h
  · split at h
    · next hdec hallow =>
      simpa using exec_keeps_host hp hallow (by simpa using hc) h
    · cases h

theorem serveHost_hostInv {s t : State} (hs : HostInv s) (h : serveHost s = .next t) : HostInv t := by
  unfold serveHost at h
  split at h
  · next hidle =>
    unfold serveCommand at h
    split at h
    · cases h; exact hs
    · cases h
    · split at h
      · exact exec_hostInv (by simpa using hidle) h
      · cases h
  · next hpoll => exact resumePoll_hostInv (hs.quiet (by simp [hpoll])) h
  · next rest hsend => exact resumeSend_hostInv (hs.quiet (by simp [hsend])) h

theorem serveSlot_hostInv {slot : Slot} {s t : State} (hs : HostInv s) (hturn : s.turn = slot)
    (h : serveSlot slot s = .next t) : HostInv t := by
  cases slot with
  | reset => cases h; exact HostInv.of_idle rfl
  | rxin | txout =>
    obtain ⟨hho, hrh⟩ := serveCommand_keeps_host (by simp) (by simp [hturn, countPort]) h
    exact hs.congr hho hrh
  | host limit => exact serveHost_hostInv hs h

/-- Settles O53: the block's invariant holds of whatever a step answers, and the composite's is kept by each agent's
turn. -/
theorem stepKeepsInvariants : Obligations.StepKeepsInvariants := by
  intro s t hs hh h
  refine ⟨(step_answers hs).inv h, ?_⟩
  unfold step serveNext at h
  split at h
  · cases h; exact hh
  · next slot rest _ =>
    exact serveSlot_hostInv (s := { s with sched := rest, turn := slot }) (hh.congr rfl rfl) rfl h

end Sys2Proof.Machine
end

section
/-! SUPPORT. `SEND` cut short (R61), and what an uninterrupted `POLL` reads and returns (R25, R78, R141). -/

namespace Sys2Proof.Machine

/-! ### A cut SEND -/

/-- Settles O40: the loop of `SEND` cut after `n` accepted puts. -/
theorem cutSendHasPutItsFirstBytes : Obligations.CutSendHasPutItsFirstBytes := by
  intro s cmd payload n hs hturn hp hn hroom
  have hfits : payloadFits s.cfg payload = true := decide_eq_true hp
  have hlen := length_wireBytes s.cfg cmd payload
  have hcut := sendLoop_cut (wireBytes s.cfg cmd payload)
    (s := beginHost (.sending (wireBytes s.cfg cmd payload)) s) (m := n) hs.tx (by omega) hroom
  have hlimit : turnLimit s.turn = some n := by rw [hturn]; rfl
  have htake : ((wireBytes s.cfg cmd payload).take n).length = n := by rw [List.length_take]; omega
  refine ⟨ringPuts s.cfg.nTx s.tx ((wireBytes s.cfg cmd payload).take n), ?_, ?_⟩
  · show sendFrame cmd payload s = _
    rw [sendFrame, if_pos hfits, resumeSend, beginHost_turn, hlimit, hcut]
    rfl
  · exact (ringPuts_spec _ hs.tx (by rwa [htake])).2.1

/-! ### POLL over the content -/

/-- An uninterrupted `POLL` ends as the run of the decoder over the content of `rx` does, that many bytes taken. -/
theorem execPoll_run {s : State} (hs : s.Inv) (ht : turnLimit s.turn = none) :
    ∃ run rx, decodeList s.cfg (rxContent s) s.dec s.stats = .ok run ∧
      exec .poll s = .next
        { s with rx := rx, dec := run.dec, stats := run.stats, host := .idle,
                 resp := { s.resp with host := some (.frame run.frame) } } ∧
      content s.cfg.nRx rx = (rxContent s).drop run.taken := by
  obtain ⟨run, hrun, -, -, hle, -⟩ := decodeList_inv (rxContent s) hs.dec ⟨hs.dropped_le, hs.errors_le⟩
  refine ⟨run, _, hrun, ?_, (hs.rx.advance (by simpa [rxContent] using hle)).2⟩
  rw [execPoll_whole hs.rx ht, hrun]
  rfl

/-- Settles O32: both polls are the run of the decoder over the same content. -/
theorem pollSeesOnlyContent : Obligations.PollSeesOnlyContent := by
  intro s r hs hr ht hc
  have hs' : State.Inv { s with rx := r } := ⟨hs.legal, hr, hs.tx, hs.dec, hs.dropped_le, hs.errors_le⟩
  have hview : rxContent { s with rx := r } = rxContent s := hc
  obtain ⟨run, rx, hrun, ht₁, hrx⟩ := execPoll_run hs ht
  obtain ⟨run', rx', hrun', ht₂, hrx'⟩ := execPoll_run hs' ht
  rw [hview] at hrun' hrx'
  cases hrun.symm.trans hrun'
  exact ⟨_, _, ht₁, ht₂, rfl, hrx'.trans hrx.symm⟩

/-! ### A frame returned was on the wire -/

/-- The bytes taken so far of the frame in progress, from its `STX` on; none in `WAIT_STX` (R145). -/
def begun (cfg : Config) (d : Decoder) : List Byte :=
  match d.phase with
  | .waitStx => []
  | .awaitLen => [cfg.stx]
  | .awaitCmd => [cfg.stx, d.len]
  | .awaitPayload => cfg.stx :: d.len :: d.cmd :: bufBytes d.buf d.idx
  | .awaitCrc => cfg.stx :: d.len :: d.cmd :: bufBytes d.buf d.idx

/-- A byte that completes no frame adds to the frame in progress, or ends it; what is in progress after it is the end
of the bytes taken. -/
theorem begun_consumed {cfg : Config} {b : Byte} {d d' : Decoder} {c c' : Stats}
    (hd : DecoderInv cfg.maxPayload d) (h : decodeCore b cfg d c = .ok (.consumed, d', c')) :
    begun cfg d' <:+ begun cfg d ++ [b] := by
  cases hp : d.phase with
  | waitStx =>
    by_cases hb : b = cfg.stx
    · subst hb
      cases h.symm.trans (core_waitStx_match hp)
      simp [begun, hp]
    · cases h.symm.trans (core_waitStx_drop hp hb)
      simp [begun, hp]
  | awaitLen =>
    by_cases hb : b.toNat ≤ cfg.maxPayload
    · cases h.symm.trans (core_awaitLen_valid hp hb)
      simp [begun, hp]
    · cases h.symm.trans (core_awaitLen_invalid hp (Nat.not_le.1 hb))
      simp [begun]
  | awaitCmd =>
    cases h.symm.trans (core_awaitCmd hp)
    by_cases h0 : 0 < d.len.toNat <;> simp [begun, hp, h0, bufBytes]
  | awaitPayload =>
    have hi := hd.idx_payload hp
    have hlen := hd.len_le
    cases h.symm.trans (core_awaitPayload hp (by omega))
    have hbuf := bufBytes_write hd.storage.1 d.idx b
    by_cases h1 : d.idx + 1 = d.len.toNat
    · simp [begun, hp, h1, ← hbuf]
    · simp [begun, hp, h1, hbuf]
  | awaitCrc =>
    by_cases hb : b = d.acc
    · subst hb
      cases h.symm.trans (core_awaitCrc_match hp hd.len_le)
    · cases h.symm.trans (core_awaitCrc_mismatch hp hb)
      simp [begun]

/-- The byte that completes a frame is the last of its wire bytes (R78, R141). -/
theorem begun_frame {cfg : Config} {b : Byte} {d d' : Decoder} {c c' : Stats} {f : Frame}
    (hd : DecoderInv cfg.maxPayload d) (h : decodeCore b cfg d c = .ok (.frame f, d', c')) :
    begun cfg d ++ [b] = wireBytes cfg f.command f.payload ∧ f.length = lenByte f.payload ∧
      f.payload.length ≤ cfg.maxPayload := by
  cases hp : d.phase with
  | waitStx =>
    by_cases hb : b = cfg.stx
    · subst hb
      cases h.symm.trans (core_waitStx_match hp)
    · cases h.symm.trans (core_waitStx_drop hp hb)
  | awaitLen =>
    by_cases hb : b.toNat ≤ cfg.maxPayload
    · cases h.symm.trans (core_awaitLen_valid hp hb)
    · cases h.symm.trans (core_awaitLen_invalid hp (Nat.not_le.1 hb))
  | awaitCmd => cases h.symm.trans (core_awaitCmd hp)
  | awaitPayload =>
    have hi := hd.idx_payload hp
    have hlen := hd.len_le
    cases h.symm.trans (core_awaitPayload hp (by omega))
  | awaitCrc =>
    by_cases hb : b = d.acc
    · subst hb
      cases h.symm.trans (core_awaitCrc_match hp hd.len_le)
      have hacc := hd.acc_fold (.inr hp)
      rw [hd.idx_crc hp] at hacc
      have hlen : lenByte (bufBytes d.buf d.len.toNat) = d.len := by simp [lenByte]
      exact ⟨by simp [begun, hp, hd.idx_crc hp, wireBytes, frameCrc, hlen, hacc], hlen.symm,
        by simpa using hd.len_le⟩
    · cases h.symm.trans (core_awaitCrc_mismatch hp hb)

/-- A frame that a run over a list emits: the bytes begun before it and the bytes it took end with its wire bytes. -/
theorem decodeList_sound {cfg : Config} {f : Frame} (bs : List Byte) :
    ∀ {d : Decoder} {c : Stats} {run : ListRun}, DecoderInv cfg.maxPayload d → StatsInv cfg c →
      decodeList cfg bs d c = .ok run → run.frame = some f →
      wireBytes cfg f.command f.payload <:+ begun cfg d ++ bs.take run.taken ∧
        f.length = lenByte f.payload ∧ f.payload.length ≤ cfg.maxPayload := by
  induction bs with
  | nil => intro d c run _ _ h hf; cases h; cases hf
  | cons b bs ih =>
    intro d c run hd hc h hf
    obtain ⟨r, d', c', hcore, hd', hc', hne, -⟩ := decodeCore_inv (b := b) hd hc
    cases r with
    | empty => exact absurd rfl hne
    | frame g =>
      cases h.symm.trans (decodeList_frame hcore)
      cases hf
      obtain ⟨hbytes, hlen⟩ := begun_frame hd hcore
      exact ⟨by simp [hbytes], hlen⟩
    | consumed =>
      obtain ⟨run', hrun', -⟩ := decodeList_inv bs hd' hc'
      rw [decodeList_consumed hcore, hrun'] at h
      cases h
      obtain ⟨hbytes, hlen⟩ := ih hd' hc' hrun' hf
      refine ⟨hbytes.trans ?_, hlen⟩
      obtain ⟨before, hbefore⟩ := begun_consumed hd hcore
      refine ⟨before, ?_⟩
      rw [← List.append_assoc, hbefore]
      simp [ListRun.after]

/-- Settles O26: from `WAIT_STX` nothing is begun, so the bytes the run took end with the wire bytes. -/
theorem polledFrameWasOnTheWire : Obligations.PolledFrameWasOnTheWire := by
  intro s t f hs hturn hp h hf
  obtain ⟨run, rx, hrun, hpoll, hrx⟩ := execPoll_run hs hturn
  cases hpoll.symm.trans h
  have hframe : run.frame = some f := by simpa using hf
  have hbegun : begun s.cfg s.dec = [] := by simp [begun, hp]
  obtain ⟨⟨before, hbytes⟩, hframe⟩ :=
    decodeList_sound (rxContent s) hs.dec ⟨hs.dropped_le, hs.errors_le⟩ hrun hframe
  rw [hbegun, List.nil_append] at hbytes
  refine ⟨before, ?_, hframe⟩
  change rxContent s = before ++ wireBytes s.cfg f.command f.payload ++ content s.cfg.nRx rx
  rw [hrx, hbytes, List.take_append_drop]

end Sys2Proof.Machine
end

section
/-! SUPPORT. Where storage lies and what its stale bytes are is unobservable (R25, R43): two states that meet the
invariant and look alike are taken by each shared operation, and so by every instruction and step, to the same result
and to states that look alike. -/

namespace Sys2Proof.Machine

/-! ### States that look alike -/

namespace SameView

variable {s t : State}

theorem cfg (h : SameView s t) : t.cfg = s.cfg := by rw [h.rest]

theorem dec (h : SameView s t) : t.dec = { s.dec with buf := t.dec.buf } := congrArg State.dec h.rest

theorem stats (h : SameView s t) : t.stats = s.stats := by rw [h.rest]

theorem host (h : SameView s t) : t.host = s.host := by rw [h.rest]

theorem sched (h : SameView s t) : t.sched = s.sched := by rw [h.rest]

theorem turn (h : SameView s t) : t.turn = s.turn := by rw [h.rest]

theorem queue (h : SameView s t) (p : Port) : t.queue p = s.queue p := by
  cases p with
  | rxin | host | txout => rw [h.rest]; rfl

theorem bufContent (h : SameView s t) (q : Buf) : bufContent t q = bufContent s q := by
  cases q with
  | rx => exact h.rx
  | tx => exact h.tx

theorem countBytes (h : SameView s t) (q : Buf) : countBytes q t = countBytes q s := by
  show (t.ring q).cnt = (s.ring q).cnt
  simpa [Machine.bufContent] using congrArg List.length (h.bufContent q)

/-- Buffers of equal content in the place of `q`. -/
theorem setRing (h : SameView s t) {q : Buf} {r r' : Ring}
    (hr : content (capacity s.cfg q) r' = content (capacity s.cfg q) r) :
    SameView (s.setRing q r) (t.setRing q r') := by
  have hrest := congrArg (fun u : State => u.setRing q r') h.rest
  have hr' : content (capacity t.cfg q) r' = content (capacity s.cfg q) r := by rwa [h.cfg]
  cases q with
  | rx => exact ⟨hrest, hr', h.tx, h.buf⟩
  | tx => exact ⟨hrest, h.rx, hr', h.buf⟩

theorem initRing (h : SameView s t) (q : Buf) : SameView (initRing q s) (initRing q t) :=
  h.setRing ((content_empty rfl).trans (content_empty rfl).symm)

end SameView

/-- Two states that meet the invariant and look alike. -/
structure Twins (s t : State) : Prop where
  left : s.Inv
  right : t.Inv
  view : SameView s t

/-- An update that neither reads nor writes the buffers and the decoder. -/
structure Inert (f : State → State) : Prop where
  inv : ∀ s, s.Inv → (f s).Inv
  cfg : ∀ s, (f s).cfg = s.cfg
  rx : ∀ s, (f s).rx = s.rx
  tx : ∀ s, (f s).tx = s.tx
  dec : ∀ s, (f s).dec = s.dec
  comm : ∀ (s : State) (r r' : Ring) (d : Decoder),
    f { s with rx := r, tx := r', dec := d } = { f s with rx := r, tx := r', dec := d }

theorem Inert.sameView {f : State → State} (hf : Inert f) {s t : State} (h : SameView s t) :
    SameView (f s) (f t) where
  rest := by
    rw [hf.rx, hf.tx, hf.dec, hf.dec]
    exact (congrArg f h.rest).trans (hf.comm _ _ _ _)
  rx := by simpa only [rxContent, hf.cfg, hf.rx] using h.rx
  tx := by simpa only [txContent, hf.cfg, hf.tx] using h.tx
  buf := by simpa only [hf.dec] using h.buf

theorem Inert.twins {f : State → State} (hf : Inert f) {s t : State} (h : Twins s t) : Twins (f s) (f t) :=
  ⟨hf.inv s h.left, hf.inv t h.right, hf.sameView h.view⟩

theorem inert_present (p : Port) (r : Result) : Inert (present p r) where
  inv _ h := h.present p r
  cfg s := present_cfg s p r
  rx s := present_rx s p r
  tx s := present_tx s p r
  dec s := present_dec s p r
  comm s r r' d := by cases p <;> rfl

theorem inert_giveBack (r : Option Result) : Inert (giveBack r) :=
  ⟨fun _ h => h.giveBack r, fun _ => rfl, fun _ => rfl, fun _ => rfl, fun _ => rfl, fun _ _ _ _ => rfl⟩

theorem inert_beginHost (op : HostOp) : Inert (beginHost op) :=
  ⟨fun _ h => h.beginHost op, fun _ => rfl, fun _ => rfl, fun _ => rfl, fun _ => rfl, fun _ _ _ _ => rfl⟩

theorem inert_pauseHost (op : HostOp) : Inert (pauseHost op) :=
  ⟨fun _ h => h.pauseHost op, fun _ => rfl, fun _ => rfl, fun _ => rfl, fun _ => rfl, fun _ _ _ _ => rfl⟩

theorem inert_endHost (r : Result) : Inert (endHost r) :=
  ⟨fun _ h => h.endHost r, fun _ => rfl, fun _ => rfl, fun _ => rfl, fun _ => rfl, fun _ _ _ _ => rfl⟩

theorem inert_countDropped : Inert countDropped :=
  ⟨fun _ h => h.countDropped, fun _ => rfl, fun _ => rfl, fun _ => rfl, fun _ => rfl, fun _ _ _ _ => rfl⟩

theorem inert_setQueue (p : Port) (bs : List Byte) : Inert (fun s => s.setQueue p bs) where
  inv _ h := h.setQueue p bs
  cfg s := setQueue_cfg s p bs
  rx s := setQueue_rx s p bs
  tx s := setQueue_tx s p bs
  dec s := setQueue_dec s p bs
  comm s r r' d := by cases p <;> rfl

theorem inert_takeTurn (slot : Slot) (rest : List Slot) :
    Inert (fun s => { s with sched := rest, turn := slot }) :=
  ⟨fun _ h => h.congr rfl rfl rfl rfl rfl, fun _ => rfl, fun _ => rfl, fun _ => rfl, fun _ => rfl,
    fun _ _ _ _ => rfl⟩

/-! ### The ring buffers -/

/-- Two operations give the same value and states that look alike. -/
def SameResult {α : Type} (x y : Except Fault (α × State)) : Prop :=
  ∃ a s t, x = .ok (a, s) ∧ y = .ok (a, t) ∧ Twins s t

theorem Twins.setRing {s t : State} (h : Twins s t) {q : Buf} {r r' : Ring}
    (hr : RingInv (capacity s.cfg q) r) (hr' : RingInv (capacity t.cfg q) r')
    (hc : content (capacity s.cfg q) r' = content (capacity s.cfg q) r) :
    Twins (s.setRing q r) (t.setRing q r') :=
  ⟨h.left.setRing hr, h.right.setRing hr', h.view.setRing hc⟩

theorem putByte_twins {s t : State} (h : Twins s t) (q : Buf) (b : Byte) :
    SameResult (putByte q b s) (putByte q b t) := by
  have hcfg := h.view.cfg
  have hcnt : (t.ring q).cnt = (s.ring q).cnt := h.view.countBytes q
  have hcontent := h.view.bufContent q
  have hs := h.left.ring q
  have ht := h.right.ring q
  by_cases hf : (s.ring q).cnt = capacity s.cfg q
  · exact ⟨false, s, t, putByte_full hf, putByte_full (by rw [hcnt, hcfg, hf]), h⟩
  · have hf' : (t.ring q).cnt ≠ capacity t.cfg q := by rwa [hcnt, hcfg]
    refine ⟨true, _, _, putByte_room hf hs.wr_lt, putByte_room hf' ht.wr_lt,
      h.setRing (hs.put hf b) (ht.put hf' b) ?_⟩
    rw [bufContent, bufContent] at hcontent
    rw [content_put hs hf, ← hcontent, ← hcfg, content_put ht hf']

/-- The byte a get takes, and the content it leaves, are those of the content. -/
theorem SameView.get {s t : State} (hs : s.Inv) (ht : t.Inv) (h : SameView s t) (q : Buf)
    (hne : (s.ring q).cnt ≠ 0) :
    (t.ring q).cnt ≠ 0 ∧ (t.ring q).mem.read (t.ring q).rd = (s.ring q).mem.read (s.ring q).rd ∧
      content (capacity s.cfg q) (advance (capacity t.cfg q) (t.ring q) 1) =
        content (capacity s.cfg q) (advance (capacity s.cfg q) (s.ring q) 1) := by
  have hne' : (t.ring q).cnt ≠ 0 := by rwa [show (t.ring q).cnt = (s.ring q).cnt from h.countBytes q]
  have hcontent := h.bufContent q
  rw [Machine.bufContent, Machine.bufContent, content_get (hs.ring q) hne, content_get (ht.ring q) hne'] at hcontent
  obtain ⟨hbyte, hrest⟩ := List.cons.inj hcontent
  rw [h.cfg] at hrest ⊢
  exact ⟨hne', hbyte, hrest⟩

theorem getByte_twins {s t : State} (h : Twins s t) (q : Buf) : SameResult (getByte q s) (getByte q t) := by
  have hs := h.left.ring q
  have ht := h.right.ring q
  by_cases he : (s.ring q).cnt = 0
  · exact ⟨none, s, t, getByte_empty he, getByte_empty ((h.view.countBytes q).trans he), h⟩
  · obtain ⟨he', hbyte, hrest⟩ := h.view.get h.left h.right q he
    refine ⟨_, _, _, getByte_some he hs.rd_lt, ?_, h.setRing (hs.get he) (ht.get he') hrest⟩
    rw [getByte_some he' ht.rd_lt, hbyte]

theorem pushByte_twins {s t : State} (h : Twins s t) (b : Byte) :
    SameResult (pushByte b s) (pushByte b t) := by
  obtain ⟨ok, s', t', hs', ht', h'⟩ := putByte_twins h .rx b
  rw [pushByte, pushByte, hs', ht']
  cases ok with
  | true => exact ⟨true, s', t', rfl, rfl, h'⟩
  | false => exact ⟨false, _, _, rfl, rfl, inert_countDropped.twins h'⟩

theorem feedBytes_twins (xs : List Byte) : ∀ {s t : State}, Twins s t →
    SameResult (feedBytes xs s) (feedBytes xs t) := by
  induction xs with
  | nil => intro s t h; exact ⟨[], s, t, rfl, rfl, h⟩
  | cons b xs ih =>
    intro s t h
    obtain ⟨ok, s₁, t₁, hs₁, ht₁, h₁⟩ := pushByte_twins h b
    obtain ⟨oks, s₂, t₂, hs₂, ht₂, h₂⟩ := ih h₁
    simp only [feedBytes, hs₁, ht₁, hs₂, ht₂]
    exact ⟨ok :: oks, s₂, t₂, rfl, rfl, h₂⟩

/-! ### The decoder -/

/-- The collected bytes of a frame in progress are the same in another scratch buffer. -/
abbrev SameCollected (d : Decoder) (m : Memory) : Prop :=
  d.phase = .awaitPayload ∨ d.phase = .awaitCrc → bufBytes m d.idx = bufBytes d.buf d.idx

/-- Of the scratch buffer, a byte's effect depends on the collected bytes only. -/
theorem decodeCore_sameCollected {b : Byte} {cfg : Config} {d e : Decoder} {c c' : Stats} {m : Memory} {r : DecResult}
    (hd : DecoderInv cfg.maxPayload d) (hwf : m.wf) (hm : SameCollected d m)
    (h : decodeCore b cfg d c = .ok (r, e, c')) :
    ∃ m', decodeCore b cfg { d with buf := m } c = .ok (r, { e with buf := m' }, c') ∧
      SameCollected e m' := by
  have hlen := hd.len_le
  obtain ⟨phase, hp⟩ : ∃ phase, d.phase = phase := ⟨_, rfl⟩
  cases phase with
  | waitStx =>
    by_cases hb : b = cfg.stx
    · subst hb
      cases h.symm.trans (core_waitStx_match hp)
      exact ⟨m, core_waitStx_match hp, by simp⟩
    · cases h.symm.trans (core_waitStx_drop hp hb)
      exact ⟨m, core_waitStx_drop hp hb, hm⟩
  | awaitLen =>
    by_cases hb : b.toNat ≤ cfg.maxPayload
    · cases h.symm.trans (core_awaitLen_valid hp hb)
      exact ⟨m, core_awaitLen_valid hp hb, by simp⟩
    · cases h.symm.trans (core_awaitLen_invalid hp (Nat.not_le.1 hb))
      exact ⟨m, core_awaitLen_invalid hp (Nat.not_le.1 hb), by simp⟩
  | awaitCmd =>
    cases h.symm.trans (core_awaitCmd hp)
    exact ⟨m, core_awaitCmd hp, fun _ => rfl⟩
  | awaitPayload =>
    have hi : d.idx < cfg.maxPayload := Nat.lt_of_lt_of_le (hd.idx_payload hp) hlen
    cases h.symm.trans (core_awaitPayload hp hi)
    refine ⟨m.write d.idx b, core_awaitPayload hp hi, fun _ => ?_⟩
    simp only [bufBytes_write hwf, bufBytes_write hd.storage.1, hm (.inl hp)]
  | awaitCrc =>
    by_cases hb : b = d.acc
    · subst hb
      cases h.symm.trans (core_awaitCrc_match hp hlen)
      have hpayload := hm (.inr hp)
      rw [hd.idx_crc hp] at hpayload
      have hcore := core_awaitCrc_match (cfg := cfg) (d := { d with buf := m }) (c := c) hp hlen
      simp only [hpayload] at hcore
      exact ⟨m, hcore, by simp⟩
    · cases h.symm.trans (core_awaitCrc_mismatch hp hb)
      exact ⟨m, core_awaitCrc_mismatch hp hb, by simp⟩

theorem decodeStep_keeps_inv {s t : State} {r : DecResult} (hs : s.Inv) (h : decodeStep s = .ok (r, t)) :
    t.Inv := by
  obtain ⟨r', t', h', ht'⟩ := decodeStep_inv hs
  cases h'.symm.trans h
  exact ht'

theorem decodeStep_twins {s t : State} (h : Twins s t) : SameResult (decodeStep s) (decodeStep t) := by
  obtain ⟨hs, ht, hview⟩ := h
  by_cases he : s.rx.cnt = 0
  · exact ⟨.empty, s, t, decodeStep_empty he, decodeStep_empty ((hview.countBytes .rx).trans he),
      hs, ht, hview⟩
  · obtain ⟨he', hbyte, hrest⟩ := hview.get hs ht .rx he
    obtain ⟨r, d, c, hcore, -⟩ :=
      decodeCore_inv (b := s.rx.mem.read s.rx.rd) hs.dec ⟨hs.dropped_le, hs.errors_le⟩
    obtain ⟨m, hcore', hm⟩ := decodeCore_sameCollected hs.dec ht.dec.storage.1 hview.buf hcore
    rw [← hview.dec, ← hview.cfg, ← hview.stats, ← ring_rx, ← hbyte] at hcore'
    have hstep : decodeStep s = .ok (r, { s with rx := advance s.cfg.nRx s.rx 1, dec := d, stats := c }) := by
      rw [decodeStep_some hs.rx he, hcore]; rfl
    have hstep' : decodeStep t = .ok
        (r, { t with rx := advance t.cfg.nRx t.rx 1, dec := { d with buf := m }, stats := c }) := by
      rw [decodeStep_some ht.rx he', ← ring_rx, hcore']; rfl
    refine ⟨r, _, _, hstep, hstep', decodeStep_keeps_inv hs hstep, decodeStep_keeps_inv ht hstep', ?_⟩
    exact
      { rest := congrArg (fun u : State =>
          { u with rx := advance t.cfg.nRx t.rx 1, dec := { d with buf := m }, stats := c }) hview.rest
        rx := (congrArg (fun n => content n _) (congrArg Config.nRx hview.cfg)).trans hrest
        tx := hview.tx
        buf := hm }

/-! ### Outcomes that look alike -/

/-- Both blocks go on, in states that look alike, or refuse with the same reason. -/
def AnswerAlike (o o' : Host.Outcome State Fault Refusal) : Prop :=
  (∃ s t, o = .next s ∧ o' = .next t ∧ SameView s t) ∨ ∃ r, o = .refused r ∧ o' = .refused r

theorem answerAlike_next {s t : State} (h : SameView s t) : AnswerAlike (.next s) (.next t) :=
  .inl ⟨s, t, rfl, rfl, h⟩

theorem answerAlike_refused (r : Refusal) : AnswerAlike (.refused r) (.refused r) := .inr ⟨r, rfl, rfl⟩

/-- The same operation on both, its value presented or given back. -/
theorem SameResult.answerAlike {α : Type} {x y : Except Fault (α × State)} {f : α → State → State}
    (h : SameResult x y) (hf : ∀ a, Inert (f a)) :
    AnswerAlike (outcome (x.map fun r => f r.1 r.2)) (outcome (y.map fun r => f r.1 r.2)) := by
  obtain ⟨a, s, t, rfl, rfl, hst⟩ := h
  exact answerAlike_next ((hf a).sameView hst.view)

theorem AnswerAlike.elim {o o' : Host.Outcome State Fault Refusal} (h : AnswerAlike o o') :
    (∀ s, o = .next s → ∃ t, o' = .next t ∧ SameView s t) ∧ (∀ r, o = .refused r → o' = .refused r) := by
  rcases h with ⟨s, t, rfl, rfl, hst⟩ | ⟨r, rfl, rfl⟩
  · exact ⟨fun _ hs => ⟨t, rfl, by cases hs; exact hst⟩, fun _ hr => nomatch hr⟩
  · exact ⟨fun _ hs => (nomatch hs), fun _ hr => hr⟩

/-! ### The loops -/

theorem pollLoop_alike (n : Nat) : ∀ {s t : State}, Twins s t →
    AnswerAlike (outcome (pollLoop n s)) (outcome (pollLoop n t)) := by
  induction n with
  | zero => intro s t h; exact answerAlike_next ((inert_pauseHost _).sameView h.view)
  | succ n ih =>
    intro s t h
    obtain ⟨r, s', t', hs', ht', h'⟩ := decodeStep_twins h
    simp only [pollLoop, hs', ht']
    cases r with
    | empty => exact answerAlike_next ((inert_endHost _).sameView h'.view)
    | frame f => exact answerAlike_next ((inert_endHost _).sameView h'.view)
    | consumed => exact ih h'

theorem resumePoll_alike {s t : State} (h : Twins s t) : AnswerAlike (resumePoll s) (resumePoll t) := by
  have hcnt : t.rx.cnt = s.rx.cnt := h.view.countBytes .rx
  have hsteps : pollSteps t = pollSteps s := by simp only [pollSteps, h.view.turn, hcnt]
  rw [resumePoll, resumePoll, hsteps]
  exact pollLoop_alike _ h

theorem sendLoop_put {l : Option Nat} {x : Byte} {xs : List Byte} {s t : State} (hl : l ≠ some 0)
    (hp : putByte .tx x s = .ok (true, t)) : sendLoop l (x :: xs) s = sendLoop (l.map (· - 1)) xs t := by
  rw [sendLoop.eq_3 l s x xs hl, hp]

theorem sendLoop_refused {l : Option Nat} {x : Byte} {xs : List Byte} {s t : State} (hl : l ≠ some 0)
    (hp : putByte .tx x s = .ok (false, t)) : sendLoop l (x :: xs) s = .ok (endHost (.ok false) t) := by
  rw [sendLoop.eq_3 l s x xs hl, hp]

theorem sendLoop_alike (xs : List Byte) : ∀ {l : Option Nat} {s t : State}, Twins s t →
    AnswerAlike (outcome (sendLoop l xs s)) (outcome (sendLoop l xs t)) := by
  induction xs with
  | nil =>
    intro l s t h
    rw [sendLoop, sendLoop]
    exact answerAlike_next ((inert_endHost _).sameView h.view)
  | cons x xs ih =>
    intro l s t h
    by_cases hl : l = some 0
    · subst hl
      exact answerAlike_next ((inert_pauseHost _).sameView h.view)
    · obtain ⟨ok, s', t', hs', ht', h'⟩ := putByte_twins h .tx x
      cases ok with
      | true =>
        rw [sendLoop_put hl hs', sendLoop_put hl ht']
        exact ih h'
      | false =>
        rw [sendLoop_refused hl hs', sendLoop_refused hl ht']
        exact answerAlike_next ((inert_endHost _).sameView h'.view)

theorem resumeSend_alike {s t : State} (h : Twins s t) (rest : List Byte) :
    AnswerAlike (resumeSend rest s) (resumeSend rest t) := by
  rw [resumeSend, resumeSend, h.view.turn]
  exact sendLoop_alike rest h

/-! ### Every instruction -/

theorem sendFrame_alike {s t : State} (h : Twins s t) (cmd : Byte) (payload : List Byte) :
    AnswerAlike (sendFrame cmd payload s) (sendFrame cmd payload t) := by
  rw [sendFrame, sendFrame, h.view.cfg]
  split
  · exact resumeSend_alike ((inert_beginHost _).twins h) _
  · exact answerAlike_refused _

theorem arriveFrame_alike {s t : State} (h : Twins s t) (cmd : Byte) (payload : List Byte) :
    AnswerAlike (arriveFrame cmd payload s) (arriveFrame cmd payload t) := by
  rw [arriveFrame, arriveFrame, h.view.cfg]
  split
  · exact (feedBytes_twins _ h).answerAlike fun oks => inert_present .rxin (.oks oks)
  · exact answerAlike_refused _

theorem execReset_alike {s t : State} (h : SameView s t) : AnswerAlike (execReset s) (execReset t) := by
  have hr := (h.initRing .rx).initRing .tx
  refine answerAlike_next { rest := ?_, rx := hr.rx, tx := hr.tx, buf := fun _ => rfl }
  conv_lhs => rw [h.rest]
  rfl

/-- Every instruction answers alike in states that look alike: the results, refusals included, are the same. -/
theorem exec_alike {s t : State} (h : Twins s t) (i : Instr) : AnswerAlike (exec i s) (exec i t) := by
  cases i with
  | reset => exact execReset_alike h.view
  | rbInit q => exact answerAlike_next ((inert_giveBack none).sameView (h.view.initRing q))
  | rbPut q b => exact (putByte_twins h q b).answerAlike fun ok => inert_giveBack (some (.ok ok))
  | rbGet q => exact (getByte_twins h q).answerAlike fun o => inert_giveBack (some (.byte o))
  | rbCount q =>
    simp only [exec, execRbCount, h.view.countBytes]
    exact answerAlike_next ((inert_giveBack _).sameView h.view)
  | ckXor xs => exact answerAlike_next ((inert_giveBack _).sameView h.view)
  | decStep => exact (decodeStep_twins h).answerAlike fun r => inert_giveBack (some (.dec r))
  | rxPush b => exact (pushByte_twins h b).answerAlike fun ok => inert_present .rxin (.ok ok)
  | rxCount =>
    simp only [exec, execRxCount, h.view.countBytes]
    exact answerAlike_next ((inert_present _ _).sameView h.view)
  | txPop => exact (getByte_twins h .tx).answerAlike fun o => inert_present .txout (.byte o)
  | txCount =>
    simp only [exec, execTxCount, h.view.countBytes, h.view.turn]
    exact answerAlike_next ((inert_present _ _).sameView h.view)
  | poll => exact resumePoll_alike ((inert_beginHost .polling).twins h)
  | send cmd payload => exact sendFrame_alike h cmd payload
  | sendAck =>
    simp only [exec, execSendAck, h.view.cfg]
    exact sendFrame_alike h _ _
  | sendNack r =>
    simp only [exec, execSendNack, h.view.cfg]
    exact sendFrame_alike h _ _
  | stats =>
    simp only [exec, execStats, h.view.stats]
    exact answerAlike_next ((inert_present _ _).sameView h.view)
  | reservedOpselect c => exact answerAlike_refused _
  | frame cmd payload => exact arriveFrame_alike h cmd payload
  | frameAck =>
    simp only [exec, execFrameAck, h.view.cfg]
    exact arriveFrame_alike h _ _
  | frameNack r =>
    simp only [exec, execFrameNack, h.view.cfg]
    exact arriveFrame_alike h _ _

/-! ### Every step -/

theorem serveCommand_alike {s t : State} (h : Twins s t) (p : Port) :
    AnswerAlike (serveCommand p s) (serveCommand p t) := by
  rw [serveCommand, serveCommand, h.view.queue]
  split
  · exact answerAlike_next h.view
  · exact answerAlike_refused _
  · split
    · exact exec_alike ((inert_setQueue p _).twins h) _
    · exact answerAlike_refused _

theorem serveHost_alike {s t : State} (h : Twins s t) : AnswerAlike (serveHost s) (serveHost t) := by
  rw [serveHost, serveHost, h.view.host]
  split
  · exact serveCommand_alike h .host
  · exact resumePoll_alike h
  · exact resumeSend_alike h _

theorem serveSlot_alike {s t : State} (h : Twins s t) (slot : Slot) :
    AnswerAlike (serveSlot slot s) (serveSlot slot t) := by
  cases slot with
  | reset => exact exec_alike h .reset
  | rxin => exact serveCommand_alike h .rxin
  | txout => exact serveCommand_alike h .txout
  | host limit => exact serveHost_alike h

theorem step_alike {s t : State} (h : Twins s t) : AnswerAlike (step s) (step t) := by
  rw [step, step, serveNext, serveNext, h.view.sched]
  split
  · exact answerAlike_next h.view
  · next slot rest _ => exact serveSlot_alike ((inert_takeTurn slot rest).twins h) slot

/-- Nothing is buffered and nothing collected after reset, so the storage bytes are out of view (R28, R35). -/
theorem powerOn_sameView (c : Config) (rxMem txMem decBuf rxMem' txMem' decBuf' : Memory) :
    SameView (State.powerOn c rxMem txMem decBuf) (State.powerOn c rxMem' txMem' decBuf') :=
  ⟨rfl, rfl, rfl, fun _ => rfl⟩

/-- Settles O60: states that meet the invariant and look alike answer alike. -/
theorem unwrittenBytesAreUnobservable : Obligations.UnwrittenBytesAreUnobservable :=
  ⟨fun i _ _ hs ht h => (exec_alike ⟨hs, ht, h⟩ i).elim, fun _ _ hs ht h => (step_alike ⟨hs, ht, h⟩).elim,
    powerOn_sameView⟩

end Sys2Proof.Machine
end

section
/-! SUPPORT. Turns (R60, R61, R220, R231): which operation a step runs, and a composite cut at the end of a turn and gone
on with in a later one. -/

namespace Sys2Proof.Machine

/-! ### The turn of a step -/

/-- The next turn is taken off the list. -/
def takeTurn (slot : Slot) (turns : List Slot) (s : State) : State := { s with sched := turns, turn := slot }

/-- A step serves the next turn. -/
theorem step_of_sched {s : State} {slot : Slot} {turns : List Slot} (h : s.sched = slot :: turns) :
    step s = serveSlot slot (takeTurn slot turns s) := by
  rw [step, serveNext, h]
  rfl

theorem serveCommand_of_decode {p : Port} {s : State} {i : Instr} {rest : List Byte}
    (hd : decode (s.queue p) = .ok (i, rest)) (ha : allowedAt p i = true) :
    serveCommand p s = exec i (s.setQueue p rest) := by
  rw [serveCommand, hd]
  exact if_pos ha

theorem serveCommand_of_nothing_issued {p : Port} {s : State} (h : s.queue p = []) :
    serveCommand p s = .next s := by
  rw [serveCommand, h]
  rfl

/-- Everything a port served without a refusal can have done. -/
theorem serveCommand_cases {p : Port} {s t : State} (h : serveCommand p s = .next t) :
    t = s ∨ ∃ i rest, allowedAt p i = true ∧ exec i (s.setQueue p rest) = .next t := by
  unfold serveCommand at h
  split at h
  · cases h
    exact .inl rfl
  · cases h
  · next i rest _ =>
    split at h
    · next ha => exact .inr ⟨i, rest, ha, h⟩
    · cases h

theorem serveHost_of_idle {s : State} (h : s.host = .idle) : serveHost s = serveCommand .host s := by
  rw [serveHost, h]

theorem serveHost_of_polling {s : State} (h : s.host = .polling) : serveHost s = resumePoll s := by
  rw [serveHost, h]

theorem serveHost_of_sending {s : State} {left : List Byte} (h : s.host = .sending left) :
    serveHost s = resumeSend left s := by
  rw [serveHost, h]

/-- Settles O55: the turn names the port, and the port's decoded command runs. -/
theorem stepRunsDecodedCommand : Obligations.StepRunsDecodedCommand := by
  intro s slot turns p i rest hsched hport hd ha
  have hd' : decode ((takeTurn slot turns s).queue p) = .ok (i, rest) := by cases p <;> exact hd
  rw [step_of_sched hsched]
  refine Eq.trans ?_ (serveCommand_of_decode hd' ha)
  rcases hport with ⟨rfl, rfl⟩ | ⟨rfl, rfl⟩ | ⟨⟨limit, rfl⟩, rfl, hidle⟩
  · rfl
  · rfl
  · exact serveHost_of_idle hidle

/-- Settles O56: the turn, the composite in progress and the port's bytes say which step it is. -/
theorem stepWithoutACommand : Obligations.StepWithoutACommand := by
  intro s turns limit
  refine ⟨fun h => ?_, fun h hp => ?_, fun left h hl => ?_, fun h hq => ?_, fun h hq => ?_, fun h hi hq => ?_,
    fun h => ?_⟩
  · exact step_of_sched h
  · exact (step_of_sched h).trans (serveHost_of_polling hp)
  · exact (step_of_sched h).trans (serveHost_of_sending hl)
  · exact (step_of_sched h).trans (serveCommand_of_nothing_issued hq)
  · exact (step_of_sched h).trans (serveCommand_of_nothing_issued hq)
  · exact (step_of_sched h).trans
      ((serveHost_of_idle (s := takeTurn (.host limit) turns s) hi).trans (serveCommand_of_nothing_issued hq))
  · rw [step, serveNext, h]

/-! ### Updates that the shared operations do not see -/

theorem Inert.setRing {f : State → State} (hf : Inert f) (s : State) (q : Buf) (r : Ring) :
    f (s.setRing q r) = (f s).setRing q r := by
  cases q with
  | rx =>
    refine (hf.comm s r s.tx s.dec).trans ?_
    rw [← hf.tx s, ← hf.dec s]
    rfl
  | tx =>
    refine (hf.comm s s.rx r s.dec).trans ?_
    rw [← hf.rx s, ← hf.dec s]
    rfl

theorem Inert.ring {f : State → State} (hf : Inert f) (s : State) (q : Buf) : (f s).ring q = s.ring q := by
  cases q with
  | rx => exact hf.rx s
  | tx => exact hf.tx s

/-- A put before an inert update or after it. -/
theorem Inert.putByte {f : State → State} (hf : Inert f) (q : Buf) (b : Byte) (s : State) :
    putByte q b (f s) = (putByte q b s).map fun r => (r.1, f r.2) := by
  simp only [Machine.putByte, hf.ring, hf.cfg]
  split
  · rfl
  · cases store s.cfg (bufSpace q) (s.ring q).mem (s.ring q).wr b with
    | error e => rfl
    | ok m => simp only [Except.map, hf.setRing]

theorem Inert.putByte_ok {f : State → State} (hf : Inert f) {q : Buf} {b : Byte} {s t : State} {ok : Bool}
    (h : Machine.putByte q b s = .ok (ok, t)) : Machine.putByte q b (f s) = .ok (ok, f t) := by
  rw [hf.putByte, h]
  rfl

/-! ### A SEND cut and gone on with -/

/-- The HOST's composite, which a put leaves alone, is overwritten at the end of an uninterrupted `SEND`. -/
theorem sendLoop_none_pauseHost (op : HostOp) (xs : List Byte) : ∀ s : State,
    sendLoop none xs (pauseHost op s) = sendLoop none xs s := by
  induction xs with
  | nil => intro s; rw [sendLoop, sendLoop]; rfl
  | cons x xs ih =>
    intro s
    simp only [sendLoop, (inert_pauseHost op).putByte .tx x s]
    cases putByte .tx x s with
    | error e => rfl
    | ok r =>
      obtain ⟨ok, t⟩ := r
      cases ok with
      | false => rfl
      | true => exact ih t

/-- Whatever was put before the cut, going on with what is left ends as the whole. -/
theorem sendLoop_resume {left : List Byte} {slot : Slot} {turns : List Slot} (xs : List Byte) :
    ∀ {l : Option Nat} {s t : State}, sendLoop l xs s = .ok t → t.host = .sending left →
      sendLoop none left (takeTurn slot turns t) = sendLoop none xs (takeTurn slot turns s) := by
  induction xs with
  | nil =>
    intro l s t h hleft
    rw [sendLoop] at h
    cases h
    cases hleft
  | cons x xs ih =>
    intro l s t h hleft
    by_cases hl : l = some 0
    · subst hl
      cases h
      cases hleft
      exact sendLoop_none_pauseHost _ _ (takeTurn slot turns s)
    · cases hp : putByte .tx x s with
      | error e => rw [sendLoop.eq_3 l s x xs hl, hp] at h; cases h
      | ok r =>
        obtain ⟨ok, u⟩ := r
        cases ok with
        | false =>
          rw [sendLoop_refused hl hp] at h
          cases h
          cases hleft
        | true =>
          rw [sendLoop_put hl hp] at h
          have hput := (inert_takeTurn slot turns).putByte_ok hp
          exact (ih h hleft).trans (sendLoop_put (l := none) (by simp) hput).symm

/-- Settles O39: the cut loop goes on with the bytes left, and so ends as the loop over all the wire bytes. -/
theorem cutSendResumes : Obligations.CutSendResumes := by
  intro s t n cmd payload left turns _ h hleft
  simp only [exec, execSend, sendFrame] at h ⊢
  split at h
  · next hfits =>
    have hloop := outcome_next h
    rw [step_of_sched rfl, if_pos hfits]
    exact (serveHost_of_sending (s := takeTurn (.host none) turns t) hleft).trans
      (congrArg outcome (sendLoop_resume _ hloop hleft))
  · cases h

/-! ### A POLL cut and gone on with -/

/-- A `DEC_STEP` that takes a byte takes one, and does to the decoder and the counters what that byte does. -/
theorem decodeStep_of_core {s : State} {r : DecResult} {d : Decoder} {c : Stats} (hne : s.rx.cnt ≠ 0)
    (hrd : s.rx.rd < s.cfg.nRx)
    (h : decodeCore (s.rx.mem.read s.rx.rd) s.cfg s.dec s.stats = .ok (r, d, c)) :
    decodeStep s = .ok (r, { s with rx := advance s.cfg.nRx s.rx 1, dec := d, stats := c }) := by
  have hget := getByte_some (q := .rx) (s := s) hne hrd
  rw [decodeStep, hget]
  simp only [decodeByte_eq_core]
  exact congrArg (Except.map _) h

/-- Everything a `DEC_STEP` can have done. -/
theorem decodeStep_cases {s t : State} {r : DecResult} (h : decodeStep s = .ok (r, t)) :
    (r = .empty ∧ t = s ∧ s.rx.cnt = 0) ∨
    (s.rx.cnt ≠ 0 ∧ s.rx.rd < s.cfg.nRx ∧ ∃ d c,
      decodeCore (s.rx.mem.read s.rx.rd) s.cfg s.dec s.stats = .ok (r, d, c) ∧
      t = { s with rx := advance s.cfg.nRx s.rx 1, dec := d, stats := c }) := by
  unfold decodeStep at h
  split at h
  · cases h
  · next hget =>
    cases h
    rcases getByte_cases hget with ⟨-, ht, hcnt⟩ | ⟨b, hb, -⟩
    · exact .inl ⟨rfl, ht, hcnt⟩
    · cases hb
  · next b u hget =>
    rcases getByte_cases hget with ⟨hb, -⟩ | ⟨b', hb, hne, hrd, rfl, rfl⟩
    · cases hb
    · cases hb
      rw [decodeByte_eq_core] at h
      generalize hcore : decodeCore _ _ _ _ = x at h
      cases x with
      | error e => cases h
      | ok p =>
        cases h
        exact .inr ⟨hne, hrd, _, _, hcore, rfl⟩

/-- A `DEC_STEP` before or after the turn is taken off the list. -/
theorem decodeStep_takeTurn {s t : State} {r : DecResult} {slot : Slot} {turns : List Slot}
    (h : decodeStep s = .ok (r, t)) :
    decodeStep (takeTurn slot turns s) = .ok (r, takeTurn slot turns t) := by
  rcases decodeStep_cases h with ⟨rfl, rfl, hcnt⟩ | ⟨hne, hrd, d, c, hcore, rfl⟩
  · exact decodeStep_empty hcnt
  · exact decodeStep_of_core (s := takeTurn slot turns s) hne hrd hcore

/-- Each byte taken before the cut is one fewer that the rest of the loop can take, so a loop given a step more than
there are bytes ends alike from both ends of the cut (R152). -/
theorem pollLoop_resume {slot : Slot} {turns : List Slot} (n : Nat) : ∀ {s t : State},
    s.host = .polling → pollLoop n s = .ok t → t.host = .polling →
      pollLoop (t.rx.cnt + 1) (takeTurn slot turns t) = pollLoop (s.rx.cnt + 1) (takeTurn slot turns s) := by
  induction n with
  | zero =>
    intro s t hs h _
    cases h
    have hpause : pauseHost .polling s = s := by rw [← hs]; rfl
    rw [hpause]
  | succ n ih =>
    intro s t hs h ht
    rw [pollLoop] at h
    split at h
    · cases h
    · cases h; cases ht
    · cases h; cases ht
    · next u hstep =>
      rcases decodeStep_cases hstep with ⟨hr, -⟩ | ⟨hne, -, d, c, -, hu⟩
      · cases hr
      · have hcnt : u.rx.cnt + 1 = s.rx.cnt := by
          rw [hu]
          exact Nat.sub_add_cancel (Nat.one_le_iff_ne_zero.2 hne)
        calc pollLoop (t.rx.cnt + 1) (takeTurn slot turns t)
            = pollLoop (u.rx.cnt + 1) (takeTurn slot turns u) := ih (by rw [hu]; exact hs) h ht
          _ = pollLoop (s.rx.cnt + 1) (takeTurn slot turns s) := by
            rw [hcnt, pollLoop.eq_2 _ s.rx.cnt, decodeStep_takeTurn hstep]

/-- Settles O31: both go on to the end of the same bytes. -/
theorem cutPollResumes : Obligations.CutPollResumes := by
  intro s t n turns _ h ht
  have hloop := outcome_next h
  have hrest := pollLoop_resume (slot := .host none) (turns := turns) _ rfl hloop ht
  rw [step_of_sched rfl]
  exact (serveHost_of_polling (s := takeTurn (.host none) turns t) ht).trans (congrArg outcome hrest)

end Sys2Proof.Machine
end

section
/-! SUPPORT. The two buffers as queues (R57, R62, R63, R66): a put and a get in both orders, a push beside a `DEC_STEP`,
and the transmit buffer drained. -/

namespace Sys2Proof.Machine

/-! ### One shared operation and its result -/

section results

variable {q : Buf} {b : Byte} {s t : State}

theorem execRbPut_of_putByte {ok : Bool} (h : putByte q b s = .ok (ok, t)) :
    exec (.rbPut q b) s = .next (giveBack (some (.ok ok)) t) := by
  rw [exec, execRbPut, h]
  rfl

theorem execRbGet_of_getByte {o : Option Byte} (h : getByte q s = .ok (o, t)) :
    exec (.rbGet q) s = .next (giveBack (some (.byte o)) t) := by
  rw [exec, execRbGet, h]
  rfl

theorem execDecStep_of_decodeStep {r : DecResult} (h : decodeStep s = .ok (r, t)) :
    exec .decStep s = .next (giveBack (some (.dec r)) t) := by
  rw [exec, execDecStep, h]
  rfl

theorem execRxPush_of_pushByte {ok : Bool} (h : pushByte b s = .ok (ok, t)) :
    exec (.rxPush b) s = .next (present .rxin (.ok ok) t) := by
  rw [exec, execRxPush, h]
  rfl

theorem execTxPop_of_getByte {o : Option Byte} (h : getByte .tx s = .ok (o, t)) :
    exec .txPop s = .next (present .txout (.byte o) t) := by
  rw [exec, execTxPop, h]
  rfl

end results

/-! ### The primitives on the content -/

section primitives

variable {q : Buf} {s : State}

theorem length_bufContent (s : State) (q : Buf) : (bufContent s q).length = (s.ring q).cnt := length_content _ _

theorem bufContent_giveBack_setRing (s : State) (q : Buf) (r : Ring) (o : Option Result) :
    bufContent (giveBack o (s.setRing q r)) q = content (capacity s.cfg q) r := by
  cases q <;> rfl

/-- `RB_PUT` with room appends (R102). -/
theorem execRbPut_room (hs : s.Inv) (b : Byte) (hroom : (bufContent s q).length < capacity s.cfg q) :
    ∃ t, exec (.rbPut q b) s = .next t ∧ t.resp.internal = some (.ok true) ∧ t.Inv ∧ t.cfg = s.cfg ∧
      bufContent t q = bufContent s q ++ [b] := by
  rw [length_bufContent] at hroom
  have hexec := execRbPut_of_putByte (putByte_room (b := b) (Nat.ne_of_lt hroom) (hs.ring q).wr_lt)
  refine ⟨_, hexec, rfl, execKeepsInvariant _ _ _ hs hexec, by simp, ?_⟩
  rw [bufContent_giveBack_setRing]
  exact content_put (hs.ring q) (Nat.ne_of_lt hroom) b

/-- `RB_PUT` on a full buffer is refused and changes no content (R102). -/
theorem execRbPut_full (hs : s.Inv) (b : Byte) (hfull : (bufContent s q).length = capacity s.cfg q) :
    ∃ t, exec (.rbPut q b) s = .next t ∧ t.resp.internal = some (.ok false) ∧ t.Inv ∧
      bufContent t q = bufContent s q := by
  rw [length_bufContent] at hfull
  have hexec := execRbPut_of_putByte (putByte_full (b := b) hfull)
  exact ⟨_, hexec, rfl, execKeepsInvariant _ _ _ hs hexec, by cases q <;> rfl⟩

/-- `RB_GET` takes the oldest byte (R103). -/
theorem execRbGet_cons (hs : s.Inv) {x : Byte} {rest : List Byte} (h : bufContent s q = x :: rest) :
    ∃ t, exec (.rbGet q) s = .next t ∧ t.resp.internal = some (.byte (some x)) ∧ t.Inv ∧ t.cfg = s.cfg ∧
      bufContent t q = rest := by
  have hne : (s.ring q).cnt ≠ 0 := by rw [← length_bufContent, h]; simp
  rw [bufContent, content_get (hs.ring q) hne] at h
  obtain ⟨rfl, rfl⟩ := List.cons.inj h
  have hexec := execRbGet_of_getByte (getByte_some hne (hs.ring q).rd_lt)
  exact ⟨_, hexec, rfl, execKeepsInvariant _ _ _ hs hexec, by simp, bufContent_giveBack_setRing ..⟩

/-- `RB_GET` on an empty buffer returns `NONE` and leaves it empty (R103). -/
theorem execRbGet_nil (hs : s.Inv) (h : bufContent s q = []) :
    ∃ t, exec (.rbGet q) s = .next t ∧ t.resp.internal = some (.byte none) ∧ t.Inv ∧ t.cfg = s.cfg ∧
      bufContent t q = [] := by
  have hcnt : (s.ring q).cnt = 0 := by rw [← length_bufContent, h]; rfl
  have hexec := execRbGet_of_getByte (getByte_empty hcnt)
  exact ⟨_, hexec, rfl, execKeepsInvariant _ _ _ hs hexec, rfl, by cases q <;> exact h⟩

end primitives

/-- Settles O15: each order is two primitives on the content, one after the other. -/
theorem simultaneousPutAndGet : Obligations.SimultaneousPutAndGet := by
  intro q b s hs
  refine ⟨fun x rest hc hfull => ⟨?_, ?_⟩, fun hempty => ?_⟩
  · obtain ⟨t, ht, hrt, hti, hcfg, hct⟩ := execRbGet_cons hs hc
    have hroom : (bufContent t q).length < capacity t.cfg q := by
      rw [hct, hcfg, ← hfull, ← length_bufContent, hc]
      simp
    obtain ⟨u, hu, hru, -, -, hcu⟩ := execRbPut_room hti b hroom
    exact ⟨t, u, ht, hrt, hu, hru, by rw [hcu, hct]⟩
  · obtain ⟨t, ht, hrt, hti, hct⟩ := execRbPut_full hs b ((length_bufContent s q).trans hfull)
    obtain ⟨u, hu, hru, -, -, hcu⟩ := execRbGet_cons hti (hct.trans hc)
    exact ⟨t, u, ht, hrt, hu, hru, hcu⟩
  · have hc : bufContent s q = [] := content_empty hempty
    have hpos := hs.capacity_pos q
    constructor
    · obtain ⟨t, ht, hrt, hti, -, hct⟩ := execRbPut_room (q := q) hs b (by simpa [hc] using hpos)
      rw [hc, List.nil_append] at hct
      obtain ⟨u, hu, hru, -, -, hcu⟩ := execRbGet_cons hti hct
      exact ⟨t, u, ht, hrt, hu, hru, hcu⟩
    · obtain ⟨t, ht, hrt, hti, hcfg, hct⟩ := execRbGet_nil hs hc
      obtain ⟨u, hu, hru, -, -, hcu⟩ := execRbPut_room (q := q) hti b (by simpa [hct, hcfg] using hpos)
      exact ⟨t, u, ht, hrt, hu, hru, by rw [hcu, hct]; rfl⟩

/-! ### A push beside a DEC_STEP -/

/-- A put behind a byte that is not the newest leaves the oldest byte alone. -/
theorem read_rd_ringPut {n : Nat} {q : Ring} (h : RingInv n q) (h0 : q.cnt ≠ 0) (hn : q.cnt ≠ n) (b : Byte) :
    (ringPut n q b).mem.read q.rd = q.mem.read q.rd := by
  refine read_write_other _ _ ?_
  have hne := offset_ne (n := n) (r := q.rd) (j := 0) (k := q.cnt) (Nat.pos_of_ne_zero h0)
    (Nat.lt_of_le_of_ne h.cnt_le hn)
  rwa [Nat.add_zero, Nat.mod_eq_of_lt h.rd_lt, ← h.wr_eq] at hne

/-- The read side and the write side of a ring that is not empty do not meet. -/
theorem advance_ringPut {n : Nat} {q : Ring} (h0 : q.cnt ≠ 0) (b : Byte) :
    advance n (ringPut n q b) 1 = ringPut n (advance n q 1) b := by
  have hcnt : q.cnt + 1 - 1 = q.cnt - 1 + 1 := by omega
  simp only [advance, ringPut, hcnt]

/-- Settles O33: the `DEC_STEP` takes the same byte in both orders, and a put and a get of a ring that is neither empty
nor full commute. -/
theorem pushAndDecStepCommute : Obligations.PushAndDecStepCommute := by
  intro s b hs h0 hn
  obtain ⟨r, d, c, hcore, -⟩ :=
    decodeCore_inv (b := s.rx.mem.read s.rx.rd) hs.dec ⟨hs.dropped_le, hs.errors_le⟩
  have hpush := execRxPush_of_pushByte (pushByte_room (b := b) hn hs.rx.wr_lt)
  have hstep := execDecStep_of_decodeStep (decodeStep_of_core h0 hs.rx.rd_lt hcore)
  rw [← read_rd_ringPut hs.rx h0 hn b] at hcore
  have hstep' := execDecStep_of_decodeStep (decodeStep_of_core
    (s := present .rxin (.ok true) { s with rx := ringPut s.cfg.nRx s.rx b })
    (Nat.succ_ne_zero s.rx.cnt) hs.rx.rd_lt hcore)
  have hroom : s.rx.cnt - 1 < s.cfg.nRx := Nat.lt_of_lt_of_le (Nat.sub_one_lt h0) hs.rx.cnt_le
  have hpush' := execRxPush_of_pushByte (pushByte_room (b := b)
    (s := giveBack (some (.dec r)) { s with rx := advance s.cfg.nRx s.rx 1, dec := d, stats := c })
    (Nat.ne_of_lt hroom) hs.rx.wr_lt)
  refine ⟨_, _, _, hpush, hstep', hstep, hpush'.trans (congrArg Host.Outcome.next ?_)⟩
  simp only [giveBack, present, advance_ringPut h0]

/-! ### Draining -/

/-- Draining takes every byte, from the oldest to the newest. -/
theorem txDrain_eq (n : Nat) : ∀ {s : State}, RingInv s.cfg.nTx s.tx → s.tx.cnt = n →
    txDrain (n + 1) s = some (txContent s,
      { s with tx := advance s.cfg.nTx s.tx n, resp := { s.resp with txout := some (.byte none) } }) := by
  induction n with
  | zero =>
    intro s hr h
    rw [txDrain, execTxPop_of_getByte (getByte_empty h), txContent, content_empty h, advance_zero hr]
    rfl
  | succ n ih =>
    intro s hr h
    have hne : s.tx.cnt ≠ 0 := by omega
    have hrest := ih
      (s := present .txout (.byte (some (s.tx.mem.read s.tx.rd))) { s with tx := advance s.cfg.nTx s.tx 1 })
      (hr.get hne) (Nat.sub_eq_of_eq_add h)
    have hadv : advance s.cfg.nTx s.tx (n + 1) = advance s.cfg.nTx (advance s.cfg.nTx s.tx 1) n := by
      rw [advance_advance, Nat.add_comm]
    rw [txDrain, execTxPop_of_getByte (getByte_some hne hr.rd_lt), txContent, content_get hr hne, hadv]
    exact congrArg (Option.map fun r => (s.tx.mem.read s.tx.rd :: r.1, r.2)) hrest

/-- Settles O45: the drained buffer is the same storage with nothing left in it. -/
theorem txDrainReturnsContent : Obligations.TxDrainReturnsContent := by
  intro s hs
  refine ⟨_, txDrain_eq s.tx.cnt hs.tx rfl, content_empty ?_, rfl, rfl⟩
  exact Nat.sub_self _

end Sys2Proof.Machine
end

section
/-! SUPPORT. What the turn of each agent can change (R62, R215, R218), and the statement `PortsAreSeparate`. -/

namespace Sys2Proof.Machine

/-! ### What an agent may change -/

/-- The agent of RXIN produces into `rx`, counts dropped bytes, and has its own port. -/
def RxinChange (s t : State) : Prop :=
  ∃ rx c r bs, t = { s with rx := rx, stats := c, resp := { s.resp with rxin := r }, rxinQ := bs } ∧
    rx.rd = s.rx.rd ∧ c.checksumErrors = s.stats.checksumErrors

/-- The agent of TXOUT consumes from `tx`, and has its own port. -/
def TxoutChange (s t : State) : Prop :=
  ∃ tx r bs, t = { s with tx := tx, resp := { s.resp with txout := r }, txoutQ := bs } ∧
    tx.wr = s.tx.wr ∧ tx.mem = s.tx.mem

/-- The agent of HOST consumes from `rx` and produces into `tx`, has the decoder, the counters and the composite, and
its own port. -/
def HostChange (s t : State) : Prop :=
  ∃ rx tx d c op r bs,
    t = { s with rx := rx, tx := tx, dec := d, stats := c, host := op,
                 resp := { s.resp with host := r }, hostQ := bs } ∧
    rx.wr = s.rx.wr ∧ rx.mem = s.rx.mem ∧ rx.cnt ≤ s.rx.cnt ∧ tx.rd = s.tx.rd ∧ s.tx.cnt ≤ tx.cnt

theorem RxinChange.refl (s : State) : RxinChange s s := ⟨_, _, _, _, rfl, rfl, rfl⟩

theorem TxoutChange.refl (s : State) : TxoutChange s s := ⟨_, _, _, rfl, rfl, rfl⟩

theorem HostChange.refl (s : State) : HostChange s s :=
  ⟨_, _, _, _, _, _, _, rfl, rfl, rfl, Nat.le_refl _, rfl, Nat.le_refl _⟩

/-! What is taken off an agent's own queue, presented on its port or begun by it is its own. -/

theorem RxinChange.of_setQueue {bs : List Byte} {s t : State} (h : RxinChange (s.setQueue .rxin bs) t) :
    RxinChange s t := h

theorem TxoutChange.of_setQueue {bs : List Byte} {s t : State} (h : TxoutChange (s.setQueue .txout bs) t) :
    TxoutChange s t := h

theorem HostChange.of_setQueue {bs : List Byte} {s t : State} (h : HostChange (s.setQueue .host bs) t) :
    HostChange s t := h

theorem HostChange.of_beginHost {op : HostOp} {s t : State} (h : HostChange (beginHost op s) t) : HostChange s t := h

theorem hostChange_present (r : Result) (s : State) : HostChange s (present .host r s) :=
  ⟨_, _, _, _, _, _, _, rfl, rfl, rfl, Nat.le_refl _, rfl, Nat.le_refl _⟩

/-! ### The operations of each port -/

theorem exec_rxinChange {i : Instr} {s t : State} (ha : allowedAt .rxin i = true) (h : exec i s = .next t) :
    RxinChange s t := by
  cases i with
  | rxPush b =>
    obtain ⟨ok, u, hu, rfl⟩ := outcome_map_next h
    obtain ⟨rx, c, rfl, hrd, -, -, hc⟩ := pushByte_frame hu
    exact ⟨_, _, _, _, rfl, hrd, hc⟩
  | rxCount => cases h; exact ⟨_, _, _, _, rfl, rfl, rfl⟩
  | reservedOpselect c => cases h
  | _ => cases ha

theorem exec_txoutChange {i : Instr} {s t : State} (hturn : countPort s.turn = .txout)
    (ha : allowedAt .txout i = true) (h : exec i s = .next t) : TxoutChange s t := by
  cases i with
  | txPop =>
    obtain ⟨o, u, hu, rfl⟩ := outcome_map_next h
    obtain ⟨r, rfl, hwr, hmem⟩ := getByte_frame hu
    exact ⟨_, _, _, rfl, hwr, hmem⟩
  | txCount =>
    rw [exec, execTxCount, hturn] at h
    cases h
    exact ⟨_, _, _, rfl, rfl, rfl⟩
  | reservedOpselect c => cases h
  | _ => cases ha

theorem resumePoll_hostChange {s t : State} (h : resumePoll s = .next t) : HostChange s t := by
  obtain ⟨rx, d, c, op, r, rfl, hwr, hmem, hcnt, -⟩ := pollLoop_frame _ (outcome_next h)
  exact ⟨_, _, _, _, _, _, _, rfl, hwr, hmem, hcnt, rfl, Nat.le_refl _⟩

theorem resumeSend_hostChange {rest : List Byte} {s t : State} (h : resumeSend rest s = .next t) :
    HostChange s t := by
  obtain ⟨tx, op, r, rfl, hrd, hcnt, -⟩ := sendLoop_frame _ (outcome_next h)
  exact ⟨_, _, _, _, _, _, _, rfl, rfl, rfl, Nat.le_refl _, hrd, hcnt⟩

theorem sendFrame_hostChange {cmd : Byte} {payload : List Byte} {s t : State}
    (h : sendFrame cmd payload s = .next t) : HostChange s t := by
  unfold sendFrame at h
  split at h
  · exact (resumeSend_hostChange h).of_beginHost
  · cases h

theorem exec_hostChange {i : Instr} {s t : State} (hturn : countPort s.turn = .host)
    (ha : allowedAt .host i = true) (h : exec i s = .next t) : HostChange s t := by
  cases i with
  | txCount =>
    rw [exec, execTxCount, hturn] at h
    cases h
    exact hostChange_present _ s
  | stats => cases h; exact hostChange_present _ s
  | poll => exact (resumePoll_hostChange h).of_beginHost
  | send cmd payload => exact sendFrame_hostChange h
  | sendAck => exact sendFrame_hostChange (cmd := s.cfg.opAck) (payload := []) h
  | sendNack r => exact sendFrame_hostChange (cmd := s.cfg.opNack) (payload := [r]) h
  | reservedOpselect c => cases h
  | _ => cases ha

/-! ### The turn of each port -/

theorem serveCommand_rxinChange {s t : State} (h : serveCommand .rxin s = .next t) : RxinChange s t := by
  rcases serveCommand_cases h with rfl | ⟨i, rest, ha, hexec⟩
  · exact RxinChange.refl t
  · exact (exec_rxinChange ha hexec).of_setQueue

theorem serveCommand_txoutChange {s t : State} (hturn : countPort s.turn = .txout)
    (h : serveCommand .txout s = .next t) : TxoutChange s t := by
  rcases serveCommand_cases h with rfl | ⟨i, rest, ha, hexec⟩
  · exact TxoutChange.refl t
  · exact (exec_txoutChange (by simpa using hturn) ha hexec).of_setQueue

theorem serveHost_hostChange {s t : State} (hturn : countPort s.turn = .host) (h : serveHost s = .next t) :
    HostChange s t := by
  cases hop : s.host with
  | idle =>
    rw [serveHost_of_idle hop] at h
    rcases serveCommand_cases h with rfl | ⟨i, rest, ha, hexec⟩
    · exact HostChange.refl t
    · exact (exec_hostChange (by simpa using hturn) ha hexec).of_setQueue
  | polling => exact resumePoll_hostChange ((serveHost_of_polling hop).symm.trans h)
  | sending left => exact resumeSend_hostChange ((serveHost_of_sending hop).symm.trans h)

/-- Settles O59: in the turn of an agent only what is that agent's changes. -/
theorem portsAreSeparate : Obligations.PortsAreSeparate := by
  intro s t turns h
  refine ⟨fun hsched => ?_, fun hsched => ?_, fun limit hsched => ?_⟩
  · rw [step_of_sched hsched] at h
    obtain ⟨rx, c, r, bs, rfl, hrd, hc⟩ := serveCommand_rxinChange h
    exact ⟨rfl, rfl, hrd, hc, rfl, rfl, rfl, rfl, rfl⟩
  · rw [step_of_sched hsched] at h
    obtain ⟨tx, r, bs, rfl, hwr, hmem⟩ := serveCommand_txoutChange rfl h
    exact ⟨rfl, rfl, rfl, hwr, hmem, rfl, rfl, rfl, rfl, rfl⟩
  · rw [step_of_sched hsched] at h
    obtain ⟨rx, tx, d, c, op, r, bs, rfl, hwr, hmem, hle, hrd, hge⟩ := serveHost_hostChange rfl h
    exact ⟨hwr, hmem, hle, hrd, hge, rfl, rfl, rfl, rfl⟩

end Sys2Proof.Machine
end

section
/-! SUPPORT. Command words (R87 to R89): the op-select table as equations of the decoder, and that decoding and encoding
are inverse to each other. -/

namespace Sys2Proof.Machine

/-! ### The operand bytes -/

theorem maxPayload_le_255 {cfg : Config} (hc : cfg.Legal) : cfg.maxPayload ≤ 255 := by
  obtain ⟨-, -, hmax, -⟩ := hc
  exact hmax

theorem decodeByteOperand_ok {mk : Byte → Instr} {xs tail : List Byte} {i : Instr}
    (h : decodeByteOperand mk xs = .ok (i, tail)) : ∃ b, xs = b :: tail ∧ i = mk b := by
  cases xs with
  | nil => cases h
  | cons b rest =>
    cases h
    exact ⟨b, rfl, rfl⟩

/-- A byte that counts the payload is its `LEN` byte. -/
theorem lenByte_of_length {payload : List Byte} {len : Byte} (h : payload.length = len.toNat) :
    lenByte payload = len := by
  rw [lenByte, h, BitVec.ofNat_toNat, BitVec.setWidth_eq]

/-- The `len` byte says where the payload ends, whatever stands behind it. -/
theorem decodeSendOperands_append (cmd : Byte) {payload : List Byte} (tail : List Byte)
    (h : payload.length ≤ 255) :
    decodeSendOperands (cmd :: lenByte payload :: (payload ++ tail)) = .ok (.send cmd payload, tail) := by
  rw [decodeSendOperands, lenByte_toNat h, if_pos (by simp), List.take_left, List.drop_left]

theorem decodeSendOperands_ok {xs tail : List Byte} {i : Instr} (h : decodeSendOperands xs = .ok (i, tail)) :
    ∃ cmd payload, xs = cmd :: lenByte payload :: (payload ++ tail) ∧ i = .send cmd payload := by
  match xs with
  | [] => cases h
  | [_] => cases h
  | cmd :: len :: rest =>
    rw [decodeSendOperands] at h
    split at h
    · next hle =>
      cases h
      have hlen : lenByte (rest.take len.toNat) = len :=
        lenByte_of_length (List.length_take_of_le hle)
      exact ⟨cmd, rest.take len.toNat, by rw [hlen, List.take_append_drop], rfl⟩
    · cases h

/-! ### The op-select table -/

section table
variable (rest : List Byte)

@[simp] theorem decode_rxPush : decode (0x00 :: rest) = decodeByteOperand .rxPush rest := rfl
@[simp] theorem decode_rxCount : decode (0x01 :: rest) = .ok (.rxCount, rest) := rfl
@[simp] theorem decode_txPop : decode (0x02 :: rest) = .ok (.txPop, rest) := rfl
@[simp] theorem decode_txCount : decode (0x03 :: rest) = .ok (.txCount, rest) := rfl
@[simp] theorem decode_poll : decode (0x04 :: rest) = .ok (.poll, rest) := rfl
@[simp] theorem decode_send : decode (0x05 :: rest) = decodeSendOperands rest := rfl
@[simp] theorem decode_sendAck : decode (0x06 :: rest) = .ok (.sendAck, rest) := rfl
@[simp] theorem decode_sendNack : decode (0x07 :: rest) = decodeByteOperand .sendNack rest := rfl
@[simp] theorem decode_stats : decode (0x08 :: rest) = .ok (.stats, rest) := rfl

end table

/-- The command byte selects no operation (R89). -/
abbrev SelectsNothing (c : Byte) : Prop := c.toNat / 16 ≠ 0 ∨ 9 ≤ c.toNat % 16

theorem selectsNothing_eq_true {c : Byte} : selectsNothing c = true ↔ SelectsNothing c := by
  rw [selectsNothing, Bool.or_eq_true, decide_eq_true_eq, decide_eq_true_eq]

theorem decode_reserved {c : Byte} (h : SelectsNothing c) (rest : List Byte) :
    decode (c :: rest) = .ok (.reservedOpselect c, rest) := by
  rw [decode]
  split
  · next hhigh =>
    have hlow : 9 ≤ c.toNat % 16 := h.resolve_left (not_not_intro hhigh)
    unfold decodeOpSelect
    split
    case h_10 => rfl
    all_goals omega
  · rfl

/-- A command byte selects nothing, or it is one of the nine of the table. -/
theorem selectsNothing_or_tabled (c : Byte) :
    SelectsNothing c ∨ c = 0x00 ∨ c = 0x01 ∨ c = 0x02 ∨ c = 0x03 ∨ c = 0x04 ∨ c = 0x05 ∨ c = 0x06 ∨
      c = 0x07 ∨ c = 0x08 := by
  unfold SelectsNothing
  bv_omega

/-- Settles O2: each row of the table is its equation; the payload of a `SEND` ends where its `len` byte says. -/
theorem decodeOfEncodedCommand : Obligations.DecodeOfEncodedCommand := by
  intro cfg i bs tail hc hw he
  cases i with
  | rxPush b => cases he; exact decode_rxPush (b :: tail)
  | rxCount => cases he; exact decode_rxCount tail
  | txPop => cases he; exact decode_txPop tail
  | txCount => cases he; exact decode_txCount tail
  | poll => cases he; exact decode_poll tail
  | send cmd payload =>
    cases he
    have hfits : payload.length ≤ cfg.maxPayload := of_decide_eq_true hw
    exact decodeSendOperands_append cmd tail (hfits.trans (maxPayload_le_255 hc))
  | sendAck => cases he; exact decode_sendAck tail
  | sendNack r => cases he; exact decode_sendNack (r :: tail)
  | stats => cases he; exact decode_stats tail
  | reservedOpselect c => cases he; exact decode_reserved (selectsNothing_eq_true.1 hw) tail
  | _ => cases he

/-- Everything a decoded command can be: its own encoding stands before the bytes left, and a row `RESERVED_OPSELECT`
comes from a byte that selects nothing. -/
theorem decode_ok {bs tail : List Byte} {i : Instr} (h : decode bs = .ok (i, tail)) :
    ∃ word, encodeCommand i = some word ∧ bs = word ++ tail ∧ ∀ c, i = .reservedOpselect c → SelectsNothing c := by
  cases bs with
  | nil => cases h
  | cons c rest =>
    rcases selectsNothing_or_tabled c with hc | rfl | rfl | rfl | rfl | rfl | rfl | rfl | rfl | rfl
    · cases (decode_reserved hc rest).symm.trans h
      refine ⟨_, rfl, rfl, fun b hb => ?_⟩
      cases hb
      exact hc
    · obtain ⟨b, rfl, rfl⟩ := decodeByteOperand_ok ((decode_rxPush rest).symm.trans h)
      exact ⟨_, rfl, rfl, nofun⟩
    · cases (decode_rxCount rest).symm.trans h
      exact ⟨_, rfl, rfl, nofun⟩
    · cases (decode_txPop rest).symm.trans h
      exact ⟨_, rfl, rfl, nofun⟩
    · cases (decode_txCount rest).symm.trans h
      exact ⟨_, rfl, rfl, nofun⟩
    · cases (decode_poll rest).symm.trans h
      exact ⟨_, rfl, rfl, nofun⟩
    · obtain ⟨cmd, payload, rfl, rfl⟩ := decodeSendOperands_ok ((decode_send rest).symm.trans h)
      exact ⟨_, rfl, rfl, nofun⟩
    · cases (decode_sendAck rest).symm.trans h
      exact ⟨_, rfl, rfl, nofun⟩
    · obtain ⟨b, rfl, rfl⟩ := decodeByteOperand_ok ((decode_sendNack rest).symm.trans h)
      exact ⟨_, rfl, rfl, nofun⟩
    · cases (decode_stats rest).symm.trans h
      exact ⟨_, rfl, rfl, nofun⟩

/-- Settles O3: every answer of the decoder leaves the bytes behind an encoding. -/
theorem decodedCommandIsItsEncoding : Obligations.DecodedCommandIsItsEncoding := by
  intro bs tail i h
  obtain ⟨word, hword, hbytes, -⟩ := decode_ok h
  exact ⟨word, hword, hbytes⟩

/-- Settles O1: each word is the encoding of its row. -/
theorem commandWordsDecodeAsTabled : Obligations.CommandWordsDecodeAsTabled := by
  have hdecode : ∀ {i : Instr} {bs : List Byte}, wellFormed Config.ref i = true → encodeCommand i = some bs →
      decode bs = .ok (i, []) := fun {i bs} hw he => by
    simpa using decodeOfEncodedCommand Config.ref i bs [] (by decide) hw he
  exact ⟨hdecode rfl rfl, hdecode rfl rfl, hdecode rfl rfl, hdecode rfl rfl, hdecode rfl rfl, hdecode rfl rfl,
    hdecode rfl rfl, hdecode rfl rfl, hdecode rfl rfl, hdecode rfl rfl⟩

theorem decode_eq_reserved_iff (c : Byte) (rest : List Byte) :
    decode (c :: rest) = .ok (.reservedOpselect c, rest) ↔ SelectsNothing c := by
  refine ⟨fun h => ?_, fun h => decode_reserved h rest⟩
  obtain ⟨-, -, -, hselects⟩ := decode_ok h
  exact hselects c rfl

/-- Settles O6: the row is decoded on every port, and `exec` refuses it. -/
theorem reservedOpselectRefused : Obligations.ReservedOpselectRefused := by
  refine ⟨decode_eq_reserved_iff, fun c s => rfl, fun c rest s turns hc => ?_⟩
  have hdecode := decode_reserved hc rest
  refine ⟨fun hs hq => ?_, fun hs hq => ?_, fun limit hs hidle hq => ?_⟩
  · exact stepRunsDecodedCommand s .rxin turns .rxin _ rest hs (.inl ⟨rfl, rfl⟩)
      ((congrArg decode hq).trans hdecode) rfl
  · exact stepRunsDecodedCommand s .txout turns .txout _ rest hs (.inr (.inl ⟨rfl, rfl⟩))
      ((congrArg decode hq).trans hdecode) rfl
  · exact stepRunsDecodedCommand s (.host limit) turns .host _ rest hs (.inr (.inr ⟨⟨limit, rfl⟩, rfl, hidle⟩))
      ((congrArg decode hq).trans hdecode) rfl

end Sys2Proof.Machine
end

section
/-! SUPPORT. Wire frames (R70 to R81): the bytes accepted as one frame, their row, and the frame that a `POLL` makes of
them after they arrived. -/

namespace Sys2Proof.Machine

/-! ### The row of a frame -/

@[simp] theorem frameRow_ack (cfg : Config) : frameRow cfg cfg.opAck [] = .frameAck := if_pos rfl

@[simp] theorem frameRow_nack (cfg : Config) (r : Byte) : frameRow cfg cfg.opNack [r] = .frameNack r := if_pos rfl

/-! ### The bytes of a frame -/

/-- The fields of a valid frame, found by position behind `STX` (R72, R78). -/
theorem decodeAfterStx_valid {cfg : Config} {len : Byte} (cmd : Byte) {payload : List Byte} (tail : List Byte)
    (hlen : payload.length = len.toNat) (hmax : len.toNat ≤ cfg.maxPayload) :
    decodeAfterStx cfg (len :: cmd :: (payload ++ xorFold (len :: cmd :: payload) :: tail)) =
      .ok (frameRow cfg cmd payload, tail) := by
  rw [decodeAfterStx, if_neg (Nat.not_lt.2 hmax), ← hlen, List.take_left, List.drop_left]
  exact if_pos rfl

theorem decodeWire_wireBytes {cfg : Config} (hc : cfg.Legal) (cmd : Byte) {payload : List Byte} (tail : List Byte)
    (h : payload.length ≤ cfg.maxPayload) :
    decodeWire cfg (wireBytes cfg cmd payload ++ tail) = .ok (frameRow cfg cmd payload, tail) := by
  have hlen : (lenByte payload).toNat = payload.length := lenByte_toNat (h.trans (maxPayload_le_255 hc))
  have hfields := decodeAfterStx_valid (cfg := cfg) cmd tail hlen.symm (hlen.trans_le h)
  simpa [decodeWire, wireBytes, frameCrc] using hfields

theorem decodeAfterStx_ok {cfg : Config} {xs tail : List Byte} {i : Instr}
    (h : decodeAfterStx cfg xs = .ok (i, tail)) :
    ∃ cmd payload, payload.length ≤ cfg.maxPayload ∧ cfg.stx :: xs = wireBytes cfg cmd payload ++ tail := by
  match xs with
  | [] => cases h
  | [_] => cases h
  | len :: cmd :: rest =>
    rw [decodeAfterStx] at h
    split at h
    · cases h
    · next hmax =>
      split at h
      · cases h
      · next crc behind hdrop =>
        split at h
        · next hcrc =>
          cases h
          have hcount : (rest.take len.toNat).length = len.toNat := by
            have := congrArg List.length hdrop
            simp only [List.length_drop, List.length_cons] at this
            rw [List.length_take]
            omega
          have hlen : lenByte (rest.take len.toNat) = len := lenByte_of_length hcount
          have hrest : rest = rest.take len.toNat ++ crc :: tail := by rw [← hdrop, List.take_append_drop]
          refine ⟨cmd, rest.take len.toNat, by omega, ?_⟩
          rw [wireBytes, frameCrc, hlen, ← hcrc]
          simpa using hrest
        · cases h

/-- What is accepted as one wire frame is the wire bytes of some frame, and nothing else. -/
theorem decodeWire_whole_iff {cfg : Config} (hc : cfg.Legal) {bs : List Byte} :
    (∃ i, decodeWire cfg bs = .ok (i, [])) ↔
      ∃ cmd payload, payload.length ≤ cfg.maxPayload ∧ bs = wireBytes cfg cmd payload := by
  constructor
  · rintro ⟨i, h⟩
    cases bs with
    | nil => cases h
    | cons b rest =>
      rw [decodeWire] at h
      split at h
      · next hb =>
        obtain ⟨cmd, payload, hp, hbytes⟩ := decodeAfterStx_ok h
        exact ⟨cmd, payload, hp, by rw [hb, hbytes, List.append_nil]⟩
      · cases h
  · rintro ⟨cmd, payload, hp, rfl⟩
    exact ⟨_, by simpa using decodeWire_wireBytes hc cmd [] hp⟩

/-- Settles O4: every wire-frame row stands for a frame, and its bytes decode to that frame's row. -/
theorem decodeOfEncodedWireFrame : Obligations.DecodeOfEncodedWireFrame := by
  intro cfg i bs tail hc hw he
  cases i with
  | frame cmd payload => cases he; exact decodeWire_wireBytes hc cmd tail (of_decide_eq_true hw)
  | frameAck =>
    cases he
    rw [decodeWire_wireBytes hc cfg.opAck tail (Nat.zero_le _), frameRow_ack]
    rfl
  | frameNack r =>
    cases he
    rw [decodeWire_wireBytes hc cfg.opNack tail (of_decide_eq_true hw), frameRow_nack]
    rfl
  | _ => cases he

/-! ### Validity -/

/-- The check form of the checksum (R123). -/
theorem eq_xorFold_iff (xs : List Byte) (c : Byte) : c = xorFold xs ↔ xorFold (xs ++ [c]) = 0x00 := by
  have hlast : xorFold [c] = c := by simp
  rw [xorFold_append, hlast]
  exact eq_comm.trans BitVec.xor_eq_zero_iff.symm

/-- The length fixes the fields: an accepted frame is one with the checksum of the bytes between as its last byte
(R78). -/
theorem decodeWire_whole_iff_crc {cfg : Config} (hc : cfg.Legal) {bs : List Byte} :
    (∃ i, decodeWire cfg bs = .ok (i, [])) ↔
      ∃ (len : Byte) (body : List Byte) (crc : Byte),
        bs = cfg.stx :: len :: (body ++ [crc]) ∧ len.toNat ≤ cfg.maxPayload ∧
        bs.length = len.toNat + 4 ∧ crc = xorFold (len :: body) := by
  rw [decodeWire_whole_iff hc]
  constructor
  · rintro ⟨cmd, payload, hp, rfl⟩
    have hlen : (lenByte payload).toNat = payload.length := lenByte_toNat (hp.trans (maxPayload_le_255 hc))
    exact ⟨lenByte payload, cmd :: payload, frameCrc cmd payload, rfl, hlen.trans_le hp,
      by rw [length_wireBytes, hlen], rfl⟩
  · rintro ⟨len, body, crc, rfl, hmax, hcount, rfl⟩
    cases body with
    | nil => simp at hcount
    | cons cmd payload =>
      have hlen : payload.length = len.toNat := by simpa using hcount
      exact ⟨cmd, payload, hlen.trans_le hmax, by rw [wireBytes, frameCrc, lenByte_of_length hlen]; rfl⟩

/-- Settles O5: R123 turns the form with the last byte into the form with the checksum 0x00. -/
theorem wireFrameAcceptedIffValid : Obligations.WireFrameAcceptedIffValid := by
  intro cfg bs hc
  refine ⟨decodeWire_whole_iff_crc hc, (decodeWire_whole_iff_crc hc).trans ⟨?_, ?_⟩⟩
  · rintro ⟨len, body, crc, hbs, hmax, hcount, hcrc⟩
    exact ⟨len, body ++ [crc], hbs, hmax, hcount, (eq_xorFold_iff (len :: body) crc).1 hcrc⟩
  · rintro ⟨len, rest, hbs, hmax, hcount, hzero⟩
    rcases List.eq_nil_or_concat' rest with rfl | ⟨body, crc, rfl⟩
    · simp [hbs] at hcount
    · exact ⟨len, body, crc, hbs, hmax, hcount, (eq_xorFold_iff (len :: body) crc).2 hzero⟩

/-! ### Arrival and POLL -/

/-- A frame that fits arrives whole: its bytes are appended to `rx`, and the decoder, the counters and the turn are as
before. -/
theorem exec_wireFrame_room {s : State} (hs : s.Inv) {i : Instr} {cmd : Byte} {payload : List Byte}
    (hi : IsWireFrame s.cfg i cmd payload) (hp : payload.length ≤ s.cfg.maxPayload)
    (hroom : s.rx.cnt + (payload.length + 4) ≤ s.cfg.nRx) :
    ∃ rx resp, exec i s = .next { s with rx := rx, resp := resp } ∧
      content s.cfg.nRx rx = rxContent s ++ wireBytes s.cfg cmd payload := by
  obtain ⟨rx, k, hk, hexec, hcontent, -, -⟩ := wireFrameArrives s i cmd payload hs hp hi
  have hwhole : k = payload.length + 4 := by omega
  subst hwhole
  rw [Nat.sub_self, Nat.add_zero, Nat.min_eq_right hs.dropped_le] at hexec
  refine ⟨rx, _, hexec, ?_⟩
  rw [hcontent, List.take_of_length_le (by rw [length_wireBytes])]

/-- A `POLL` in `WAIT_STX` with one whole frame in `rx` returns it and takes its bytes. -/
theorem execPoll_wireBytes {s : State} (hs : s.Inv) (ht : turnLimit s.turn = none) (hphase : s.dec.phase = .waitStx)
    {cmd : Byte} {payload : List Byte} (hp : payload.length ≤ s.cfg.maxPayload)
    (hcontent : rxContent s = wireBytes s.cfg cmd payload) :
    ∃ u, exec .poll s = .next u ∧
      u.resp.host = some (.frame (some { command := cmd, length := lenByte payload, payload := payload })) ∧
      rxContent u = [] ∧ u.stats = s.stats := by
  obtain ⟨run, rx, hrun, hpoll, hrx⟩ := execPoll_run hs ht
  obtain ⟨hbuf, -⟩ := hs.dec.storage
  have hwire := decodeList_wire (cmd := cmd) (rest := []) (c := s.stats) hbuf hphase hp (maxPayload_le_255 hs.legal)
  rw [List.append_nil, ← hcontent] at hwire
  cases hrun.symm.trans hwire
  refine ⟨_, hpoll, rfl, hrx.trans ?_, rfl⟩
  rw [hcontent, List.drop_of_length_le (by rw [length_wireBytes])]

/-- Settles O48: the frame fits into the empty `rx`, so a `POLL` finds its wire bytes and nothing else. -/
theorem arrivedFrameIsPolled : Obligations.ArrivedFrameIsPolled := by
  intro s i cmd payload hs ht hphase hempty hp hroom hi
  obtain ⟨rx, resp, hexec, hcontent⟩ := exec_wireFrame_room hs hi hp (by omega)
  rw [rxContent, content_empty hempty, List.nil_append] at hcontent
  obtain ⟨u, hpoll, hu⟩ :=
    execPoll_wireBytes (execKeepsInvariant i s _ hs hexec) ht hphase hp hcontent
  exact ⟨_, u, hexec, hpoll, hu⟩

end Sys2Proof.Machine
end

section
/-! SUPPORT. The ring-buffer primitives (R101 to R106): the next ring of each, its content and its flags, and the
statements about them. -/

namespace Sys2Proof.Machine

/-! ### The flags and the state after a primitive -/

/-- `full(q)` is a fact about the count (R26). -/
theorem isFull_iff {n : Nat} {q : Ring} : isFull n q = true ↔ q.cnt = n := beq_iff_eq

/-- `empty(q)` is a fact about the count (R26). -/
theorem isEmpty_iff {q : Ring} : isEmpty q = true ↔ q.cnt = 0 := beq_iff_eq

theorem isFull_false_of_lt {n : Nat} {q : Ring} (h : q.cnt < n) : isFull n q = false :=
  Bool.eq_false_iff.2 fun hfull => Nat.ne_of_lt h (isFull_iff.1 hfull)

theorem advance_cnt (n : Nat) (q : Ring) (k : Nat) : (advance n q k).cnt = q.cnt - k := rfl

/-- What a primitive that replaces its buffer leaves behind: the rest of the state and the other results are as
before. -/
theorem giveBack_setRing (s : State) (q : Buf) (r : Ring) (o : Option Result) :
    giveBack o (s.setRing q r) = { s.setRing q r with resp := { s.resp with internal := o } } := by
  rw [giveBack, setRing_resp]

theorem ring_giveBack_setRing (s : State) (q : Buf) (r : Ring) (o : Option Result) :
    (giveBack o (s.setRing q r)).ring q = r := by cases q <;> rfl

/-- `RB_PUT` with room puts the byte into its ring. -/
theorem execRbPut_ringPut {q : Buf} {s : State} (hs : s.Inv) (b : Byte) (hne : (s.ring q).cnt ≠ capacity s.cfg q) :
    exec (.rbPut q b) s = .next (giveBack (some (.ok true))
      (s.setRing q (ringPut (capacity s.cfg q) (s.ring q) b))) :=
  execRbPut_of_putByte (putByte_room hne (hs.ring q).wr_lt)

/-- `RB_GET` on a buffer that is not empty returns the byte at the read index and advances its ring. -/
theorem execRbGet_advance {q : Buf} {s : State} (hs : s.Inv) (hne : (s.ring q).cnt ≠ 0) :
    exec (.rbGet q) s = .next (giveBack (some (.byte (some ((s.ring q).mem.read (s.ring q).rd))))
      (s.setRing q (advance (capacity s.cfg q) (s.ring q) 1))) :=
  execRbGet_of_getByte (getByte_some hne (hs.ring q).rd_lt)

/-! ### The statements -/

/-- Settles O11: with room the next ring is `ringPut`, whose content is the old one and the byte. -/
theorem rbPutAppendsOrRefuses : Obligations.RbPutAppendsOrRefuses := by
  intro q b s hs
  refine ⟨fun hfull => execRbPut_of_putByte (putByte_full hfull), fun hroom => ?_⟩
  have hne := Nat.ne_of_lt hroom
  have hmem := (hs.ring q).storage.1
  refine ⟨ringPut (capacity s.cfg q) (s.ring q) b, ?_, rfl, rfl, rfl, read_write_same hmem _ b,
    fun _ ha => read_write_other _ b ha, content_put (hs.ring q) hne b, rfl, isFull_iff⟩
  rw [execRbPut_ringPut hs b hne, giveBack_setRing]

/-- Settles O12: the next ring is `advance` by one, and the content is the byte read before the content of that ring. -/
theorem rbGetRemovesOldest : Obligations.RbGetRemovesOldest := by
  intro q s hs
  refine ⟨fun hempty => execRbGet_of_getByte (getByte_empty hempty), fun b rest hc => ?_⟩
  have hne : (s.ring q).cnt ≠ 0 := by rw [← length_bufContent, hc]; simp
  rw [bufContent, content_get (hs.ring q) hne] at hc
  obtain ⟨hbyte, hrest⟩ := List.cons.inj hc
  have hle := (hs.ring q).cnt_le
  refine ⟨advance (capacity s.cfg q) (s.ring q) 1, ?_, rfl, hbyte, hrest, ?_, isFull_false_of_lt ?_⟩
  · rw [execRbGet_advance hs hne, giveBack_setRing, hbyte]
  · rw [isEmpty_iff, advance_cnt]
    omega
  · rw [advance_cnt]
    omega

/-- Settles O13: the content lists one byte for each count. -/
theorem rbCountIsLength : Obligations.RbCountIsLength := by
  intro q s hs
  refine ⟨?_, length_bufContent s q, (hs.ring q).cnt_le⟩
  rw [length_bufContent]
  rfl

/-- Settles O14: each property is what the primitives do to the content, from the content that the count gives. -/
theorem ringTestableLaws : Obligations.RingTestableLaws := by
  intro q b s hs
  refine ⟨fun hempty => ?_, fun hfull => ?_, fun hempty => ?_⟩
  · have hc : bufContent s q = [] := content_empty hempty
    have hroom : (bufContent s q).length < capacity s.cfg q := by rw [hc]; exact hs.capacity_pos q
    obtain ⟨t, hput, -, hinv, -, hct⟩ := execRbPut_room hs b hroom
    rw [hc, List.nil_append] at hct
    obtain ⟨u, hget, hres, -, -, hcu⟩ := execRbGet_cons hinv hct
    exact ⟨t, u, hput, hget, hres, hcu⟩
  · obtain ⟨t, hput, hres, -, hct⟩ := execRbPut_full hs b ((length_bufContent s q).trans hfull)
    exact ⟨t, hput, hres, hct⟩
  · obtain ⟨t, hget, hres, -, -, hct⟩ := execRbGet_nil hs (content_empty hempty)
    exact ⟨t, hget, hres, hct⟩

/-- Settles O10: the next ring has the count 0, which gives its content and its flags. -/
theorem rbInitEmpties : Obligations.RbInitEmpties := by
  intro q s
  refine ⟨giveBack none (initRing q s), rfl, giveBack_setRing .., ?_, ?_, fun hpos => ?_⟩
  · rw [initRing, bufContent_giveBack_setRing]
    exact content_empty rfl
  · rw [initRing, ring_giveBack_setRing]
    exact isEmpty_iff.2 rfl
  · rw [initRing, ring_giveBack_setRing]
    exact isFull_false_of_lt hpos

end Sys2Proof.Machine
end

section
/-! SUPPORT. The checksum unit (R121 to R124): `CK_XOR` counts bits modulo 2, its check form, and the inverted bit that
it detects. -/

namespace Sys2Proof.Machine

/-! ### Parity -/

/-- Bit `i` of the checksum counts the bits `i` of the bytes modulo 2 (R121). -/
theorem getLsbD_xorFold (xs : List Byte) (i : Nat) :
    (xorFold xs).getLsbD i = (xs.countP (fun x => x.getLsbD i) % 2 == 1) := by
  induction xs with
  | nil => simp
  | cons x xs ih =>
    rw [xorFold_cons, BitVec.getLsbD_xor, ih, List.countP_cons]
    rcases Nat.mod_two_eq_zero_or_one (xs.countP fun x => x.getLsbD i) with h | h <;>
      cases x.getLsbD i <;> simp [Nat.add_mod, h]

/-- The order of the bytes does not matter: each bit is a count (R121). -/
theorem xorFold_perm {xs ys : List Byte} (h : xs.Perm ys) : xorFold xs = xorFold ys :=
  BitVec.eq_of_getLsbD_eq fun i _ => by rw [getLsbD_xorFold, getLsbD_xorFold, h.countP_eq]

/-- Settles O8: the parity of each bit gives the value and its independence of the order; the rest is what `CK_XOR`
computes. -/
theorem ckXorIsBytewiseParity : Obligations.CkXorIsBytewiseParity :=
  ⟨fun _ _ => rfl, getLsbD_xorFold, xorFold_nil, fun _ _ => xorFold_perm, fun _ _ => rfl, by decide⟩

/-- Settles O9: exclusive-or with the checksum of the bytes is 0x00 for that byte alone. -/
theorem checksumCheckForm : Obligations.ChecksumCheckForm := eq_xorFold_iff

/-! ### A changed byte -/

/-- A byte changed by a mask changes the checksum by that mask, wherever the byte stands. -/
theorem xorFold_modify (m : Byte) (xs : List Byte) :
    ∀ {j : Nat}, j < xs.length → xorFold (xs.modify j fun b => b ^^^ m) = xorFold xs ^^^ m := by
  induction xs with
  | nil => intro j hj; cases hj
  | cons x xs ih =>
    intro j hj
    cases j with
    | zero =>
      rw [List.modify_zero_cons, xorFold_cons, xorFold_cons, BitVec.xor_assoc, BitVec.xor_comm m, BitVec.xor_assoc]
    | succ j =>
      rw [List.modify_succ_cons, xorFold_cons, xorFold_cons, ih (Nat.lt_of_succ_lt_succ hj), BitVec.xor_assoc]

/-- `LEN` speaks of the number of payload bytes only (R74). -/
theorem lenByte_congr {xs ys : List Byte} (h : xs.length = ys.length) : lenByte xs = lenByte ys := by
  rw [lenByte, lenByte, h]

/-- A list with a byte at each end, and what stands between them. -/
theorem eq_cons_concat_of_length {bs : List Byte} {n : Nat} (h : bs.length = n + 2) :
    ∃ first middle last, bs = first :: (middle ++ [last]) ∧ middle.length = n := by
  cases bs with
  | nil => cases h
  | cons first bs =>
    rcases List.eq_nil_or_concat' bs with rfl | ⟨middle, last, rfl⟩
    · cases h
    · exact ⟨first, middle, last, rfl, by simpa using h⟩

/-- What stands behind `LEN` after one byte changed is again a command, as many payload bytes and a last byte, and that
last byte is not their checksum: the check form of R123 gives the mask of the change where it gave 0x00. -/
theorem changed_byte_wrong_crc {m : Byte} (hm : m ≠ 0x00) (cmd : Byte) (payload : List Byte) {j : Nat}
    (hj : j < payload.length + 2) :
    ∃ cmd' payload' wrong,
      (cmd :: (payload ++ [frameCrc cmd payload])).modify j (fun b => b ^^^ m) = cmd' :: (payload' ++ [wrong]) ∧
      payload'.length = payload.length ∧ wrong ≠ frameCrc cmd' payload' := by
  have hlength : (cmd :: (payload ++ [frameCrc cmd payload])).length = payload.length + 2 := by simp
  obtain ⟨cmd', payload', wrong, hbytes, hlen⟩ :=
    eq_cons_concat_of_length ((List.length_modify (fun b => b ^^^ m) _ j).trans hlength)
  refine ⟨cmd', payload', wrong, hbytes, hlen, fun hcrc => hm ?_⟩
  have hvalid : xorFold (lenByte payload :: cmd :: (payload ++ [frameCrc cmd payload])) = 0x00 :=
    (eq_xorFold_iff (lenByte payload :: cmd :: payload) _).1 rfl
  have hchanged := xorFold_modify m (lenByte payload :: cmd :: (payload ++ [frameCrc cmd payload]))
    (j := j + 1) (Nat.succ_lt_succ (hlength ▸ hj))
  have hcheck : xorFold (lenByte payload :: cmd' :: (payload' ++ [wrong])) = 0x00 :=
    lenByte_congr hlen ▸ (eq_xorFold_iff (lenByte payload' :: cmd' :: payload') wrong).1 hcrc
  rw [List.modify_succ_cons, hbytes, hcheck, hvalid] at hchanged
  exact BitVec.zero_xor.symm.trans hchanged.symm

/-- A mask of one bit changes a byte. -/
theorem twoPow_ne_zero {i : Nat} (hi : i < 8) : BitVec.twoPow 8 i ≠ 0x00 := by
  intro h
  have hbit := congrArg (BitVec.getLsbD · i) h
  simp [hi] at hbit

/-! ### POLL on a corrupted frame -/

/-- A `POLL` in `WAIT_STX` with one frame in `rx` whose last byte is wrong takes its bytes, counts one checksum error
and returns no frame (R140; D9, D11). -/
theorem execPoll_wrongCrc {s : State} (hs : s.Inv) (ht : turnLimit s.turn = none) (hphase : s.dec.phase = .waitStx)
    {cmd wrong : Byte} {payload : List Byte} (hp : payload.length ≤ s.cfg.maxPayload)
    (hwrong : wrong ≠ frameCrc cmd payload)
    (hcontent : rxContent s = s.cfg.stx :: lenByte payload :: cmd :: (payload ++ [wrong])) :
    ∃ t, exec .poll s = .next t ∧ t.resp.host = some (.frame none) ∧ rxContent t = [] ∧
      t.stats = { s.stats with checksumErrors := satInc s.cfg s.stats.checksumErrors } := by
  obtain ⟨run, rx, hrun, hpoll, hrx⟩ := execPoll_run hs ht
  have hlist := decodeList_corrupted (rest := []) (c := s.stats) hphase hp (maxPayload_le_255 hs.legal) hwrong
  rw [← hcontent] at hlist
  cases hrun.symm.trans hlist
  refine ⟨_, hpoll, rfl, hrx.trans ?_, rfl⟩
  rw [hcontent]
  exact List.drop_of_length_le (by simp [ListRun.after])

/-- Settles O29: the bytes after the inversion are a frame with a wrong last byte. -/
theorem flippedBitDetected : Obligations.FlippedBitDetected := by
  intro s cmd payload j i hs ht hphase hp hj hi hcontent
  obtain ⟨cmd', payload', wrong, hbytes, hlen, hwrong⟩ :=
    changed_byte_wrong_crc (twoPow_ne_zero hi) cmd payload hj
  rw [hbytes, ← lenByte_congr hlen] at hcontent
  exact execPoll_wrongCrc hs ht hphase (hlen.trans_le hp) hwrong hcontent

end Sys2Proof.Machine
end

section
/-! SUPPORT. The decoder (R130 to R153): the cases of a `DEC_STEP` on the whole state, what an uninterrupted `POLL`
ends in, and bytes fed in chunks. -/

namespace Sys2Proof.Machine

/-! ### DEC_STEP -/

/-- A `DEC_STEP` with the byte `b` at the front of `rx` takes it, and does to the decoder and the counters what `b`
does. -/
theorem execDecStep_of_core {s : State} {b : Byte} {r : DecResult} {d : Decoder} {c : Stats} (hs : s.Inv)
    (hne : s.rx.cnt ≠ 0) (hb : s.rx.mem.read s.rx.rd = b)
    (hcore : decodeCore b s.cfg s.dec s.stats = .ok (r, d, c)) :
    exec .decStep s = .next
      { s with
        rx := advance s.cfg.nRx s.rx 1
        dec := d
        stats := c
        resp := { s.resp with internal := some (.dec r) } } :=
  execDecStep_of_decodeStep (decodeStep_of_core hne hs.rx.rd_lt (hb ▸ hcore))

/-- Settles O16: no byte is taken. -/
theorem decStepOnEmptyChangesNothing : Obligations.DecStepOnEmptyChangesNothing :=
  fun _ hempty => execDecStep_of_decodeStep (decodeStep_empty hempty)

/-- Settles O17: the two cases of `WAIT_STX`. -/
theorem decStepWaitStx : Obligations.DecStepWaitStx := by
  intro s b hs hphase hne hb
  refine ⟨fun hstx => ?_, fun hstx => ?_⟩
  · exact execDecStep_of_core hs hne (hb.trans hstx) (core_waitStx_match hphase)
  · exact execDecStep_of_core hs hne hb (core_waitStx_drop hphase hstx)

/-- Settles O18: the two cases of `AWAIT_LEN`. -/
theorem decStepAwaitLen : Obligations.DecStepAwaitLen := by
  intro s b hs hphase hne hb
  refine ⟨fun hle => ?_, fun hgt => ?_⟩
  · exact execDecStep_of_core hs hne hb (core_awaitLen_valid hphase hle)
  · exact execDecStep_of_core hs hne hb (core_awaitLen_invalid hphase hgt)

/-- Settles O19: without a payload the accumulator holds `LEN`, which is 0x00, so it becomes the command byte. -/
theorem decStepAwaitCmd : Obligations.DecStepAwaitCmd := by
  intro s b hs hphase hne hb
  have hcore := core_awaitCmd (b := b) (cfg := s.cfg) (c := s.stats) hphase
  refine ⟨fun hpos => ?_, fun hzero => ?_⟩
  · rw [if_pos hpos] at hcore
    exact execDecStep_of_core hs hne hb hcore
  · have hacc : s.dec.acc ^^^ b = b := by simp [hs.dec.acc_cmd hphase, hzero]
    rw [if_neg (by simp [hzero]), hacc] at hcore
    exact execDecStep_of_core hs hne hb hcore

/-- Settles O20: the invariant keeps `dec.idx` below `dec.len`, which is at most `MAX_PAYLOAD`. -/
theorem decStepAwaitPayload : Obligations.DecStepAwaitPayload := by
  intro s b hs hphase hne hb
  have hidx : s.dec.idx < s.cfg.maxPayload := Nat.lt_of_lt_of_le (hs.dec.idx_payload hphase) hs.dec.len_le
  have hcore := core_awaitPayload (b := b) (c := s.stats) hphase hidx
  refine ⟨s.dec.buf.write s.dec.idx b, read_write_same hs.dec.storage.1 _ b, hidx,
    fun _ ha => read_write_other _ b ha, fun hmore => ?_, fun hlast => ?_⟩
  · rw [if_neg (Nat.ne_of_lt hmore), ← hphase] at hcore
    exact execDecStep_of_core hs hne hb hcore
  · rw [if_pos hlast] at hcore
    exact execDecStep_of_core hs hne hb hcore

/-- Settles O21: the payload is what `bufBytes` lists. -/
theorem decStepAwaitCrcMatch : Obligations.DecStepAwaitCrcMatch := by
  intro s hs hphase hne hb
  have hlen := length_bufBytes s.dec.buf s.dec.len.toNat
  exact ⟨bufBytes s.dec.buf s.dec.len.toNat, hlen, hlen.trans_le hs.dec.len_le,
    fun _ hi => getElem?_bufBytes _ hi,
    execDecStep_of_core hs hne hb (core_awaitCrc_match hphase hs.dec.len_le)⟩

/-- Settles O22: the mismatch case of `AWAIT_CRC`. -/
theorem decStepAwaitCrcMismatch : Obligations.DecStepAwaitCrcMismatch :=
  fun _ _ hs hphase hne hb hwrong => execDecStep_of_core hs hne hb (core_awaitCrc_mismatch hphase hwrong)

/-! ### What a POLL ends in -/

/-- Settles O23: the one `DEC_STEP` finds no byte. -/
theorem pollOnEmptyChangesNothing : Obligations.PollOnEmptyChangesNothing := by
  intro s hempty hlimit
  have hsteps : ∃ n, pollSteps (beginHost .polling s) = n + 1 := by
    rw [pollSteps, beginHost_turn]
    split
    · exact ⟨_, rfl⟩
    · next n hn => exact Nat.exists_eq_succ_of_ne_zero fun hzero => hlimit (hzero ▸ hn)
  obtain ⟨n, hn⟩ := hsteps
  rw [exec, execPoll, resumePoll, hn, pollLoop, decodeStep_empty (s := beginHost .polling s) hempty]
  rfl

/-- The state in which a `POLL` ends whose run over the content of `rx` is `run`. -/
def polled (s : State) (run : ListRun) : State :=
  { s with
    rx := advance s.cfg.nRx s.rx run.taken
    dec := run.dec
    stats := run.stats
    host := .idle
    resp := { s.resp with host := some (.frame run.frame) } }

/-- A `POLL` whose turn lets it take more `DEC_STEP`s than there are bytes in `rx` runs to its end (R152). -/
theorem execPoll_of_enough_steps {s : State} {run : ListRun} (hr : RingInv s.cfg.nRx s.rx)
    (hsteps : s.rx.cnt < pollSteps (beginHost .polling s))
    (hrun : decodeList s.cfg (rxContent s) s.dec s.stats = .ok run) : exec .poll s = .next (polled s run) := by
  have hloop := pollLoop_eq _ (beginHost .polling s) hr hsteps
  exact congrArg outcome (hloop.trans (congrArg (Except.map _) hrun))

theorem execPoll_polled {s : State} {run : ListRun} (hr : RingInv s.cfg.nRx s.rx) (ht : turnLimit s.turn = none)
    (hrun : decodeList s.cfg (rxContent s) s.dec s.stats = .ok run) : exec .poll s = .next (polled s run) := by
  refine execPoll_of_enough_steps hr ?_ hrun
  rw [pollSteps, beginHost_turn, ht]
  exact Nat.lt_succ_self _

/-- A run takes no more bytes than there are. -/
theorem decodeList_taken_le {cfg : Config} (bs : List Byte) : ∀ {d : Decoder} {c : Stats} {run : ListRun},
    decodeList cfg bs d c = .ok run → run.taken ≤ bs.length := by
  induction bs with
  | nil => intro d c run h; cases h; exact Nat.le_refl _
  | cons b bs ih =>
    intro d c run h
    rw [decodeList] at h
    split at h
    · cases h
    · cases h; exact Nat.succ_le_succ (Nat.zero_le _)
    · next d' c' _ _ =>
      cases hrest : decodeList cfg bs d' c' with
      | error e => rw [hrest] at h; cases h
      | ok run' =>
        rw [hrest] at h
        cases h
        exact Nat.succ_le_succ (ih hrest)

/-- The ring a `POLL` leaves: the bytes its run took are off the front of the content. -/
theorem polled_rx {s : State} {run : ListRun} (hr : RingInv s.cfg.nRx s.rx)
    (hrun : decodeList s.cfg (rxContent s) s.dec s.stats = .ok run) :
    RingInv s.cfg.nRx (polled s run).rx ∧ rxContent (polled s run) = (rxContent s).drop run.taken :=
  hr.advance ((decodeList_taken_le _ hrun).trans_eq (length_content _ _))

/-- Settles O24: `decodeList_inv` says what the run ends in, and `polled` what else changes. -/
theorem pollReturnsFrameOrDrains : Obligations.PollReturnsFrameOrDrains := by
  intro s hs ht
  obtain ⟨run, hrun, -, -, -, hnone, hsome, hbuf, hdropped, herrors⟩ :=
    decodeList_inv (rxContent s) hs.dec ⟨hs.dropped_le, hs.errors_le⟩
  refine ⟨_, run.dec, run.stats, run.frame, execPoll_polled hs.rx ht hrun, fun hf => ?_,
    fun f hf => (hsome f hf).2, ⟨(rxContent s).take run.taken, ?_⟩, rfl, rfl, hbuf, hdropped, herrors⟩
  · rw [advance_cnt, hnone hf, rxContent, length_content, Nat.sub_self]
  · exact (List.take_append_drop _ _).symm.trans (congrArg _ (polled_rx hs.rx hrun).2.symm)

/-- Settles O30: both turns let the `POLL` run to its end. -/
theorem pollWorkBounded : Obligations.PollWorkBounded := by
  intro s n hs hn
  obtain ⟨run, hrun, -⟩ := decodeList_inv (rxContent s) hs.dec ⟨hs.dropped_le, hs.errors_le⟩
  exact ⟨polled { s with turn := .host (some n) } run,
    execPoll_of_enough_steps (s := { s with turn := .host (some n) }) hs.rx hn hrun, rfl,
    execPoll_polled (s := { s with turn := .host none }) hs.rx rfl hrun⟩

/-! ### A valid frame, noise, and a corrupted frame -/

/-- Settles O25: the run over the content is the run over the wire bytes, which takes exactly those. -/
theorem pollReturnsFirstFrame : Obligations.PollReturnsFirstFrame := by
  intro s cmd payload rest hs ht hphase hp hcontent
  have hrun := decodeList_wire (cmd := cmd) (rest := rest) (c := s.stats) hs.dec.storage.1 hphase hp
    (maxPayload_le_255 hs.legal)
  rw [← hcontent] at hrun
  refine ⟨_, _, execPoll_polled hs.rx ht hrun, (polled_rx hs.rx hrun).2.trans ?_, rfl, rfl⟩
  rw [hcontent]
  exact List.drop_left' (length_wireBytes s.cfg cmd payload)

/-- Bytes none of which is `STX`, in `WAIT_STX`: each is taken, dropped and counted (R132, R153). -/
theorem decodeList_noise {cfg : Config} {d : Decoder} (hphase : d.phase = .waitStx) (bs : List Byte) :
    ∀ {c : Stats}, cfg.stx ∉ bs → c.bytesDropped ≤ counterMax cfg →
      decodeList cfg bs d c = .ok
        { frame := none, taken := bs.length, dec := d,
          stats := { c with bytesDropped := min (counterMax cfg) (c.bytesDropped + bs.length) } } := by
  induction bs with
  | nil =>
    intro c _ hc
    rw [List.length_nil, Nat.add_zero, Nat.min_eq_right hc]
    rfl
  | cons b bs ih =>
    intro c hstx hc
    obtain ⟨hb, hbs⟩ := not_or.1 (List.mem_cons.not.1 hstx)
    have hsum : min (counterMax cfg) (satInc cfg c.bytesDropped + bs.length) =
        min (counterMax cfg) (c.bytesDropped + (b :: bs).length) := by
      rw [satInc_eq_min hc, List.length_cons]
      omega
    rw [decodeList_consumed (core_waitStx_drop hphase (Ne.symm hb)), ih hbs (satInc_le hc), hsum]
    rfl

/-- The ring with every byte taken. -/
theorem advance_cnt_self {n : Nat} {q : Ring} (h : RingInv n q) :
    advance n q q.cnt = { q with rd := q.wr, cnt := 0 } := by
  rw [advance, ← h.wr_eq, Nat.sub_self]

/-- Settles O27: the run over the noise takes all of it. -/
theorem pollDropsNoise : Obligations.PollDropsNoise := by
  intro s hs ht hphase hstx
  have hpoll := execPoll_polled hs.rx ht (decodeList_noise hphase _ hstx hs.dropped_le)
  rwa [polled, rxContent, length_content, advance_cnt_self hs.rx] at hpoll

theorem writeMany_wf (bs : List Byte) : ∀ {m : Memory} (i : Nat), m.wf → (writeMany m i bs).wf := by
  induction bs with
  | nil => intro m i h; exact h
  | cons b bs ih => intro m i h; exact ih (i + 1) (write_wf h i b)

/-- Settles O28: the run goes on behind the wrong `CRC` from `WAIT_STX`, where the valid frame stands. -/
theorem pollSkipsCorruptedFrame : Obligations.PollSkipsCorruptedFrame := by
  intro s cmd cmd' wrong payload payload' rest hs ht hphase hp hp' hwrong hcontent
  have h255 := maxPayload_le_255 hs.legal
  have hrun := decodeList_corrupted (rest := wireBytes s.cfg cmd' payload' ++ rest) (c := s.stats) hphase hp h255
    hwrong
  have hbytes : rxContent s = s.cfg.stx :: lenByte payload :: cmd ::
      (payload ++ wrong :: (wireBytes s.cfg cmd' payload' ++ rest)) := by simp [hcontent]
  rw [decodeList_wire (writeMany_wf payload 0 hs.dec.storage.1) rfl hp' h255, ← hbytes] at hrun
  refine ⟨_, execPoll_polled hs.rx ht hrun, rfl, (polled_rx hs.rx hrun).2.trans ?_, rfl⟩
  rw [hcontent]
  refine List.drop_left' ?_
  simp only [ListRun.after, List.length_append, List.length_cons, List.length_nil, length_wireBytes]
  omega

/-! ### Chunks -/

/-- Polls over a list of bytes until one returns no frame: the frames, and the decoder and the counters they end in. -/
inductive Emits (cfg : Config) : List Byte → Decoder → Stats → List Frame → Decoder → Stats → Prop
  | last {bs : List Byte} {d : Decoder} {c : Stats} {run : ListRun} (hrun : decodeList cfg bs d c = .ok run)
      (hf : run.frame = none) : Emits cfg bs d c [] run.dec run.stats
  | frame {bs : List Byte} {d d' : Decoder} {c c' : Stats} {run : ListRun} {f : Frame} {fs : List Frame}
      (hrun : decodeList cfg bs d c = .ok run) (hf : run.frame = some f)
      (hrest : Emits cfg (bs.drop run.taken) run.dec run.stats fs d' c') : Emits cfg bs d c (f :: fs) d' c'

/-- Under the invariant the polls come to an end, with at most one frame a byte. -/
theorem exists_emits {cfg : Config} (n : Nat) : ∀ {bs : List Byte} {d : Decoder} {c : Stats}, bs.length ≤ n →
    DecoderInv cfg.maxPayload d → StatsInv cfg c →
    ∃ fs d' c', Emits cfg bs d c fs d' c' ∧ fs.length ≤ n ∧ DecoderInv cfg.maxPayload d' ∧ StatsInv cfg c' := by
  induction n with
  | zero =>
    intro bs d c hn hd hc
    obtain rfl := List.length_eq_zero_iff.1 (Nat.le_zero.1 hn)
    exact ⟨[], d, c, .last (run := ⟨none, 0, d, c⟩) rfl rfl, Nat.le_refl _, hd, hc⟩
  | succ n ih =>
    intro bs d c hn hd hc
    obtain ⟨run, hrun, hd', hc', -, -, hsome, -⟩ := decodeList_inv bs hd hc
    cases hf : run.frame with
    | none => exact ⟨[], _, _, .last hrun hf, Nat.zero_le _, hd', hc'⟩
    | some f =>
      obtain ⟨hpos, -⟩ := hsome f hf
      have hshort : (bs.drop run.taken).length ≤ n := by rw [List.length_drop]; omega
      obtain ⟨fs, d'', c'', hrest, hle, hinv⟩ := ih hshort hd' hc'
      exact ⟨f :: fs, _, _, .frame hrun hf hrest, Nat.succ_le_succ hle, hinv⟩

/-- Polls over one list and then over another are polls over both together (R151): the first list's last run, which
completes no frame, goes on into the second. -/
theorem Emits.append {cfg : Config} {xs ys : List Byte} {d d' d'' : Decoder} {c c' c'' : Stats} {fs gs : List Frame}
    (hx : Emits cfg xs d c fs d' c') (hy : Emits cfg ys d' c' gs d'' c'') :
    Emits cfg (xs ++ ys) d c (fs ++ gs) d'' c'' := by
  induction hx with
  | @last xs d c run hrun hf =>
    obtain ⟨-, hboth⟩ := decodeList_append xs ys hrun hf
    cases hy with
    | last hrun' hf' =>
      rw [hrun'] at hboth
      exact .last (run := ListRun.after xs.length _) hboth hf'
    | @frame _ _ _ _ _ run' _ _ hrun' hf' hrest' =>
      rw [hrun'] at hboth
      refine .frame hboth hf' ?_
      have hdrop : (xs ++ ys).drop (run'.taken + xs.length) = ys.drop run'.taken := by
        rw [Nat.add_comm, List.drop_length_add_append]
      exact hdrop.symm ▸ hrest'
  | frame hrun hf hrest ih =>
    refine .frame (decodeList_append_frame _ ys hrun hf) hf ?_
    rw [List.drop_append_of_le_length (decodeList_taken_le _ hrun)]
    exact ih hy

theorem pollUntilNone_of_none {s t : State} (n : Nat) (h : exec .poll s = .next t)
    (hf : t.resp.host = some (.frame none)) : pollUntilNone (n + 1) s = some ([], t) := by
  rw [pollUntilNone, h]
  simp only [hf]

theorem pollUntilNone_of_some {s t : State} {f : Frame} (n : Nat) (h : exec .poll s = .next t)
    (hf : t.resp.host = some (.frame (some f))) :
    pollUntilNone (n + 1) s = (pollUntilNone n t).map fun r => (f :: r.1, r.2) := by
  rw [pollUntilNone, h]
  simp only [hf]

/-- The state in which polls end that have returned `NONE`. -/
def polledOut (s : State) (rx : Ring) (d : Decoder) (c : Stats) : State :=
  { s with rx := rx, dec := d, stats := c, host := .idle, resp := { s.resp with host := some (.frame none) } }

/-- The polls of the HOST return the frames that polls over the content emit, and leave `rx` empty. -/
theorem pollUntilNone_of_emits {fs : List Frame} {d : Decoder} {c : Stats} (n : Nat) : ∀ {s : State},
    RingInv s.cfg.nRx s.rx → turnLimit s.turn = none → fs.length ≤ n →
    Emits s.cfg (rxContent s) s.dec s.stats fs d c →
    ∃ rx, pollUntilNone (n + 1) s = some (fs, polledOut s rx d c) ∧
      RingInv s.cfg.nRx rx ∧ content s.cfg.nRx rx = [] := by
  induction fs generalizing n with
  | nil =>
    intro s hr ht _ h
    cases h with
    | @last _ _ _ run hrun hf =>
      have hend : polled s run = polledOut s (polled s run).rx run.dec run.stats := by rw [polled, hf]; rfl
      obtain ⟨hr', hcontent⟩ := polled_rx hr hrun
      obtain ⟨htaken, -⟩ := decodeList_append _ [] hrun hf
      refine ⟨(polled s run).rx, ?_, hr', hcontent.trans ?_⟩
      · rw [← hend]
        exact pollUntilNone_of_none n (execPoll_polled hr ht hrun) (by rw [hend]; rfl)
      · rw [htaken, List.drop_length]
  | cons f fs ih =>
    intro s hr ht hn h
    cases h with
    | @frame _ _ _ _ _ run _ _ hrun hf hrest =>
      obtain ⟨n, rfl⟩ : ∃ m, n = m + 1 := ⟨n - 1, by rw [List.length_cons] at hn; omega⟩
      obtain ⟨hr', hcontent⟩ := polled_rx hr hrun
      obtain ⟨rx, hpolls, hrx⟩ :=
        ih n (s := polled s run) hr' ht (Nat.le_of_succ_le_succ hn) (hcontent.symm ▸ hrest)
      have hfirst : (polled s run).resp.host = some (.frame (some f)) := by rw [polled, hf]
      refine ⟨rx, ?_, hrx⟩
      rw [pollUntilNone_of_some _ (execPoll_polled hr ht hrun) hfirst, hpolls]
      rfl

/-- Bytes that fit are fed, and then the HOST polls: the frames are those of polls over the old content and the new
bytes, and nothing else but `rx`, the decoder, the counters and the HOST's side changes. -/
theorem feedBytes_pollUntilNone {s : State} {bs : List Byte} {fs : List Frame} {d : Decoder} {c : Stats}
    (hr : RingInv s.cfg.nRx s.rx) (ht : turnLimit s.turn = none) (hroom : s.rx.cnt + bs.length ≤ s.cfg.nRx)
    (hfs : fs.length ≤ s.cfg.nRx) (h : Emits s.cfg (rxContent s ++ bs) s.dec s.stats fs d c) :
    ∃ oks u rx, feedBytes bs s = .ok (oks, u) ∧
      pollUntilNone (s.cfg.nRx + 1) u = some (fs, polledOut s rx d c) ∧
      RingInv s.cfg.nRx rx ∧ content s.cfg.nRx rx = [] := by
  obtain ⟨hr', hcontent, -⟩ := ringPuts_spec bs hr hroom
  obtain ⟨rx, hpolls, hrx⟩ := pollUntilNone_of_emits s.cfg.nRx
    (s := { s with rx := ringPuts s.cfg.nRx s.rx bs }) hr' ht hfs (hcontent.symm ▸ h)
  exact ⟨_, _, rx, feedBytes_room bs hr hroom, hpolls, hrx⟩

/-- Settles O34: the polls over the first chunk and those over the second are, joined, the polls over both. -/
theorem chunkInvariance : Obligations.ChunkInvariance := by
  intro s xs ys hs ht hroom
  have hlen : (rxContent s ++ xs).length = s.rx.cnt + xs.length := by
    rw [List.length_append, rxContent, length_content]
  obtain ⟨fs₁, d₁, c₁, hx, hn₁, hd₁, hc₁⟩ := exists_emits _ hlen.le hs.dec ⟨hs.dropped_le, hs.errors_le⟩
  obtain ⟨fs₂, d₂, c₂, hy, hn₂, -⟩ := exists_emits _ (Nat.le_refl ys.length) hd₁ hc₁
  have hxy := hx.append hy
  rw [List.append_assoc] at hxy
  obtain ⟨oks₁, s₁, rx₁, hfeed₁, hpolls₁, hrx₁, hempty₁⟩ :=
    feedBytes_pollUntilNone hs.rx ht (by omega) (by omega) hx
  have hcnt₁ : rx₁.cnt = 0 := by rw [← length_content s.cfg.nRx, hempty₁, List.length_nil]
  have hy' : Emits s.cfg (content s.cfg.nRx rx₁ ++ ys) d₁ c₁ fs₂ d₂ c₂ := by rwa [hempty₁, List.nil_append]
  have hroom₂ : rx₁.cnt + ys.length ≤ s.cfg.nRx := by omega
  have hfs₂ : fs₂.length ≤ s.cfg.nRx := by omega
  obtain ⟨oks₂, s₂, rx₂, hfeed₂, hpolls₂, -, hempty₂⟩ :=
    feedBytes_pollUntilNone (s := polledOut s rx₁ d₁ c₁) hrx₁ ht hroom₂ hfs₂ hy'
  obtain ⟨oks, u, rx, hfeed, hpolls, -, hempty⟩ := feedBytes_pollUntilNone hs.rx ht
    (by rw [List.length_append]; omega) (by rw [List.length_append]; omega) hxy
  exact ⟨s₁, polledOut s rx₁ d₁ c₁, s₂, polledOut s rx₂ d₂ c₂, u, polledOut s rx d₂ c₂, oks₁, oks₂, oks, fs₁, fs₂,
    hfeed₁, hpolls₁, hfeed₂, hpolls₂, hfeed, hpolls, rfl, rfl, hempty₂, hempty⟩

end Sys2Proof.Machine
end

section
/-! SUPPORT. The encoder (R160 to R168): what an uninterrupted `SEND` leaves in `tx`, with room and without, the two
reply frames, and the round trip into another block. -/

namespace Sys2Proof.Machine

/-! ### The domain -/

theorem payloadFits_eq_false {cfg : Config} {payload : List Byte} (h : cfg.maxPayload < payload.length) :
    payloadFits cfg payload = false := decide_eq_false (Nat.not_le.2 h)

theorem sendFrame_out_of_domain {s : State} (cmd : Byte) {payload : List Byte}
    (h : s.cfg.maxPayload < payload.length) :
    sendFrame cmd payload s = .refused (.sendOutOfDomain cmd payload) := by
  simp [sendFrame, payloadFits_eq_false h]

theorem arriveFrame_out_of_domain {s : State} (cmd : Byte) {payload : List Byte}
    (h : s.cfg.maxPayload < payload.length) :
    arriveFrame cmd payload s = .refused (.frameOutOfDomain cmd payload) := by
  simp [arriveFrame, payloadFits_eq_false h]

/-- Settles O7: the payload of a `SEND_NACK` and of a `FRAME_NACK` has one byte, too long when `MAX_PAYLOAD = 0`. -/
theorem outOfDomainRefused : Obligations.OutOfDomainRefused := by
  intro s cmd r payload
  refine ⟨fun h => ⟨sendFrame_out_of_domain cmd h, arriveFrame_out_of_domain cmd h⟩, fun h => ?_⟩
  have hlong : s.cfg.maxPayload < [r].length := by rw [h]; exact Nat.one_pos
  exact ⟨sendFrame_out_of_domain _ hlong, arriveFrame_out_of_domain _ hlong⟩

/-! ### An uninterrupted SEND -/

/-- The state in which a `SEND` ends that has put `bs` and returns `ok`. -/
def sent (s : State) (bs : List Byte) (ok : Bool) : State :=
  { s with tx := ringPuts s.cfg.nTx s.tx bs, host := .idle, resp := { s.resp with host := some (.ok ok) } }

section whole

variable {s : State} {cmd : Byte} {payload : List Byte}

/-- In its domain a `SEND` that no other agent cuts is the loop over the wire bytes to its end. -/
theorem execSend_whole (ht : turnLimit s.turn = none) (hp : payload.length ≤ s.cfg.maxPayload) :
    exec (.send cmd payload) s = outcome (sendLoop none (wireBytes s.cfg cmd payload)
      (beginHost (.sending (wireBytes s.cfg cmd payload)) s)) := by
  have hfits : payloadFits s.cfg payload = true := decide_eq_true hp
  rw [exec, execSend, sendFrame, if_pos hfits, resumeSend, beginHost_turn, ht]

/-- With room every wire byte is put (R160). -/
theorem execSend_room (hs : s.Inv) (ht : turnLimit s.turn = none) (hp : payload.length ≤ s.cfg.maxPayload)
    (hroom : s.tx.cnt + (payload.length + 4) ≤ s.cfg.nTx) :
    exec (.send cmd payload) s = .next (sent s (wireBytes s.cfg cmd payload) true) := by
  rw [← length_wireBytes s.cfg cmd payload] at hroom
  have hloop := sendLoop_room _ (s := beginHost (.sending (wireBytes s.cfg cmd payload)) s) hs.tx hroom
  exact (execSend_whole ht hp).trans (congrArg outcome hloop)

/-- Without room for all of them the wire bytes that fit are put (R164). -/
theorem execSend_full (hs : s.Inv) (ht : turnLimit s.turn = none) (hp : payload.length ≤ s.cfg.maxPayload)
    (hfull : s.cfg.nTx < s.tx.cnt + (payload.length + 4)) :
    exec (.send cmd payload) s =
      .next (sent s ((wireBytes s.cfg cmd payload).take (s.cfg.nTx - s.tx.cnt)) false) := by
  rw [← length_wireBytes s.cfg cmd payload] at hfull
  have hloop := sendLoop_full _ (s := beginHost (.sending (wireBytes s.cfg cmd payload)) s) hs.tx hfull
  exact (execSend_whole ht hp).trans (congrArg outcome hloop)

end whole

/-- Settles O35: `ringPuts_spec` says what the puts of the wire bytes do to `tx`. -/
theorem sendAppendsFrame : Obligations.SendAppendsFrame := by
  intro s cmd payload hs ht hp hroom
  have hlen := length_wireBytes s.cfg cmd payload
  obtain ⟨-, hcontent, hrd, hcnt, hwr, hmem⟩ :=
    ringPuts_spec (wireBytes s.cfg cmd payload) hs.tx (by rwa [hlen])
  rw [hlen] at hcnt hwr hmem
  exact ⟨_, execSend_room hs ht hp hroom, hcontent, lenByte_toNat (hp.trans (maxPayload_le_255 hs.legal)),
    hrd, hcnt, hwr, hmem⟩

/-- Settles O36: the puts of the prefix that fits fill `tx`; of a full `tx` that prefix is empty. -/
theorem sendTruncatesOnFullBuffer : Obligations.SendTruncatesOnFullBuffer := by
  intro s cmd payload hs ht hp hfull
  have hle := hs.tx.cnt_le
  have hlen : ((wireBytes s.cfg cmd payload).take (s.cfg.nTx - s.tx.cnt)).length = s.cfg.nTx - s.tx.cnt := by
    rw [List.length_take, length_wireBytes]
    omega
  obtain ⟨-, hcontent, hrd, hcnt, -, hmem⟩ :=
    ringPuts_spec ((wireBytes s.cfg cmd payload).take (s.cfg.nTx - s.tx.cnt)) hs.tx (by omega)
  rw [hlen] at hcnt hmem
  refine ⟨_, execSend_full hs ht hp hfull, hcontent, hrd, hcnt.trans (Nat.add_sub_of_le hle), fun h => ?_, hmem⟩
  rw [h, Nat.sub_self, List.take_zero, ringPuts]

/-! ### The reply frames -/

/-- The bytes of an `ACK` (R81). -/
theorem wireBytes_opAck (cfg : Config) : wireBytes cfg cfg.opAck [] = [cfg.stx, 0x00, cfg.opAck, cfg.opAck] := by
  simp [wireBytes, frameCrc, lenByte]

/-- The bytes of a `NACK` (R81). -/
theorem wireBytes_opNack (cfg : Config) (r : Byte) :
    wireBytes cfg cfg.opNack [r] = [cfg.stx, 0x01, cfg.opNack, r, 0x01 ^^^ cfg.opNack ^^^ r] := by
  simp [wireBytes, frameCrc, lenByte, BitVec.xor_assoc]

/-- Settles O37: a `SEND` whose wire bytes are those of an `ACK`. -/
theorem sendAckIsZeroPayloadFrame : Obligations.SendAckIsZeroPayloadFrame := by
  refine ⟨fun s => rfl, fun s hs ht hroom => ?_⟩
  obtain ⟨r, hexec, hcontent, -⟩ := sendAppendsFrame s s.cfg.opAck [] hs ht (Nat.zero_le _) hroom
  exact ⟨r, hexec, hcontent.trans (congrArg (txContent s ++ ·) (wireBytes_opAck s.cfg))⟩

/-- Settles O38: a `SEND` whose wire bytes are those of a `NACK`. -/
theorem sendNackCarriesReason : Obligations.SendNackCarriesReason := by
  refine ⟨fun s r => rfl, fun s r hs ht hp hroom => ?_⟩
  obtain ⟨q, hexec, hcontent, -⟩ := sendAppendsFrame s s.cfg.opNack [r] hs ht hp hroom
  exact ⟨q, hexec, hcontent.trans (congrArg (txContent s ++ ·) (wireBytes_opNack s.cfg r))⟩

/-! ### The round trip -/

/-- Of the parameters only `STX` shows in the wire bytes. -/
theorem wireBytes_congr {cfg cfg' : Config} (h : cfg'.stx = cfg.stx) (cmd : Byte) (payload : List Byte) :
    wireBytes cfg' cmd payload = wireBytes cfg cmd payload := by rw [wireBytes, wireBytes, h]

/-- A frame sent into an empty `tx` is drained as its wire bytes (R57, R160). -/
theorem execSend_txDrain {s : State} {cmd : Byte} {payload : List Byte} (hs : s.Inv) (ht : turnLimit s.turn = none)
    (hempty : s.tx.cnt = 0) (hp : payload.length ≤ s.cfg.maxPayload) (hroom : payload.length + 4 ≤ s.cfg.nTx) :
    ∃ t t', exec (.send cmd payload) s = .next t ∧ t.resp.host = some (.ok true) ∧
      txDrain (payload.length + 5) t = some (wireBytes s.cfg cmd payload, t') := by
  obtain ⟨q, hsend, hcontent, -, -, hcnt, -⟩ := sendAppendsFrame s cmd payload hs ht hp (by omega)
  obtain ⟨t', hdrain, -⟩ := txDrainReturnsContent _ (execKeepsInvariant _ _ _ hs hsend)
  rw [hempty, Nat.zero_add] at hcnt
  rw [txContent, content_empty hempty, List.nil_append] at hcontent
  simp only [txContent, hcontent, hcnt] at hdrain
  exact ⟨_, t', hsend, rfl, hdrain⟩

/-- The wire bytes of a frame, fed to an empty `rx` with room for them, are all accepted and become its content; the
decoder, the counters and the turn are as before (R176). -/
theorem feedBytes_wireBytes {r : State} {cmd : Byte} {payload : List Byte} (hr : r.Inv) (hempty : r.rx.cnt = 0)
    (hroom : payload.length + 4 ≤ r.cfg.nRx) :
    ∃ rx, feedBytes (wireBytes r.cfg cmd payload) r =
        .ok (List.replicate (payload.length + 4) true, { r with rx := rx }) ∧
      State.Inv { r with rx := rx } ∧ content r.cfg.nRx rx = wireBytes r.cfg cmd payload := by
  have hfits : r.rx.cnt + (wireBytes r.cfg cmd payload).length ≤ r.cfg.nRx := by
    rw [length_wireBytes]
    omega
  obtain ⟨hrx, hcontent, -⟩ := ringPuts_spec _ hr.rx hfits
  have hfeed := feedBytes_room _ hr.rx hfits
  rw [length_wireBytes] at hfeed
  rw [content_empty hempty, List.nil_append] at hcontent
  exact ⟨_, hfeed, hr.setRing (q := .rx) hrx, hcontent⟩

/-- Settles O41: the bytes drained from one block are the wire bytes of the frame for the other, whose `POLL` finds
nothing else in `rx`. -/
theorem sendThenPollRoundTrip : Obligations.SendThenPollRoundTrip := by
  intro s r cmd payload hs hr hts htr htx hrx hphase hstx hps hpr hroomTx hroomRx
  obtain ⟨t, t', hsend, hok, hdrain⟩ := execSend_txDrain (cmd := cmd) hs hts htx hps hroomTx
  obtain ⟨rx, hfeed, hinv, hcontent⟩ := feedBytes_wireBytes (cmd := cmd) hr hrx hroomRx
  obtain ⟨u, hpoll, hframe, -, hstats⟩ := execPoll_wireBytes hinv htr hphase hpr hcontent
  rw [wireBytes_congr hstx] at hfeed
  exact ⟨t, _, t', _, u, hsend, hok, hdrain, hfeed, hpoll, hframe, hstats⟩

end Sys2Proof.Machine
end

section
/-! SUPPORT. The link ports (R176 to R183): what each operation of a port gives, and that no turn but RESET counts
downwards. -/

namespace Sys2Proof.Machine

/-! ### The operations of the ports -/

/-- Settles O42: with room the next ring is `ringPut`, whose content is the old one and the byte. -/
theorem rxPushAppendsOrCounts : Obligations.RxPushAppendsOrCounts := by
  intro b s hs
  refine ⟨fun hfull => execRxPush_of_pushByte (pushByte_full hfull), fun hroom => ?_⟩
  have hne := Nat.ne_of_lt hroom
  exact ⟨ringPut s.cfg.nRx s.rx b, execRxPush_of_pushByte (pushByte_room hne hs.rx.wr_lt), content_put hs.rx hne b,
    rfl, rfl, rfl, read_write_same hs.rx.storage.1 _ b, fun _ ha => read_write_other _ b ha⟩

/-- `TX_POP` on a buffer that is not empty returns the byte at the read index and advances `tx`. -/
theorem execTxPop_advance {s : State} (hs : s.Inv) (hne : s.tx.cnt ≠ 0) :
    exec .txPop s = .next (present .txout (.byte (some (s.tx.mem.read s.tx.rd)))
      { s with tx := advance s.cfg.nTx s.tx 1 }) :=
  execTxPop_of_getByte (getByte_some hne hs.tx.rd_lt)

/-- Settles O44: the next ring is `advance` by one, and the content is the byte read before the content of that
ring. -/
theorem txPopReturnsOldest : Obligations.TxPopReturnsOldest := by
  intro s hs
  refine ⟨fun hempty => execTxPop_of_getByte (getByte_empty hempty), fun b rest hc => ?_⟩
  have hne : s.tx.cnt ≠ 0 := by rw [← length_content s.cfg.nTx, ← txContent, hc]; simp
  rw [txContent, content_get hs.tx hne] at hc
  obtain ⟨rfl, hrest⟩ := List.cons.inj hc
  exact ⟨advance s.cfg.nTx s.tx 1, execTxPop_advance hs hne, rfl, hrest⟩

theorem exec_rxCount (s : State) : exec .rxCount s = .next (present .rxin (.count (rxContent s).length) s) := by
  rw [rxContent, length_content]
  rfl

theorem exec_txCount (s : State) :
    exec .txCount s = .next (present (countPort s.turn) (.count (txContent s).length) s) := by
  rw [txContent, length_content]
  rfl

/-- Settles O43: the content lists one byte for each count. -/
theorem countsArePureReads : Obligations.CountsArePureReads := by
  intro s _
  refine ⟨exec_rxCount s, fun hport => ?_, fun hport => ?_⟩
  · rw [exec_txCount, hport]
    rfl
  · rw [exec_txCount, hport]
    rfl

/-- Settles O46: presenting the pair of counters is all that `STATS` does. -/
theorem statsIsAPureSnapshot : Obligations.StatsIsAPureSnapshot := fun _ => rfl

/-! ### The counters -/

/-- No counter of `t` is below that of `s`. -/
def CountsUp (s t : State) : Prop :=
  s.stats.bytesDropped ≤ t.stats.bytesDropped ∧ s.stats.checksumErrors ≤ t.stats.checksumErrors

theorem CountsUp.refl (s : State) : CountsUp s s := ⟨Nat.le_refl _, Nat.le_refl _⟩

theorem resumePoll_countsUp {s t : State} (h : resumePoll s = .next t) : CountsUp s t := by
  obtain ⟨rx, d, c, ho, rh, rfl, -, -, -, hdropped, herrors, -⟩ := pollLoop_frame _ (outcome_next h)
  exact ⟨hdropped, herrors⟩

theorem resumeSend_countsUp {rest : List Byte} {s t : State} (h : resumeSend rest s = .next t) : CountsUp s t := by
  obtain ⟨tx, ho, rh, rfl, -⟩ := sendLoop_frame _ (outcome_next h)
  exact CountsUp.refl s

theorem arriveFrame_countsUp {cmd : Byte} {payload : List Byte} {s t : State}
    (h : arriveFrame cmd payload s = .next t) : CountsUp s t := by
  unfold arriveFrame at h
  split at h
  · obtain ⟨oks, u, hu, rfl⟩ := outcome_map_next h
    obtain ⟨rx, c, rfl, -, -, hdropped, herrors⟩ := feedBytes_frame _ hu
    exact ⟨hdropped, herrors.ge⟩
  · cases h

/-- Every instruction but `RESET` counts upwards: the writers of a counter by their frames, the others by R21. -/
theorem exec_countsUp {i : Instr} {s t : State} (hi : i ≠ .reset) (h : exec i s = .next t) : CountsUp s t := by
  obtain ⟨-, -, -, -, -, -, -, -, -, -, -, hdropped, herrors⟩ := onlyTheirWritersChangeRegisters i s t h
  cases i with
  | reset => exact absurd rfl hi
  | decStep =>
    obtain ⟨r, u, hu, rfl⟩ := outcome_map_next h
    obtain ⟨rx, d, c, rfl, -, -, -, hle, hle'⟩ := decodeStep_frame hu
    exact ⟨hle, hle'⟩
  | poll => exact resumePoll_countsUp (s := beginHost .polling s) h
  | rxPush b =>
    obtain ⟨ok, u, hu, rfl⟩ := outcome_map_next h
    obtain ⟨rx, c, rfl, -, -, hle, heq⟩ := pushByte_frame hu
    exact ⟨hle, heq.ge⟩
  | frame cmd payload => exact arriveFrame_countsUp h
  | frameAck => exact arriveFrame_countsUp (cmd := s.cfg.opAck) (payload := []) h
  | frameNack r => exact arriveFrame_countsUp (cmd := s.cfg.opNack) (payload := [r]) h
  | _ =>
    simp only [reduceCtorEq, exists_false, or_false] at hdropped herrors
    exact ⟨hdropped.ge, herrors.ge⟩

/-- A port's command is never `RESET`. -/
theorem serveCommand_countsUp {p : Port} {s t : State} (h : serveCommand p s = .next t) : CountsUp s t := by
  rcases serveCommand_cases h with rfl | ⟨i, rest, hallowed, hexec⟩
  · exact CountsUp.refl t
  · have hi : i ≠ .reset := by rintro rfl; cases hallowed
    have hup := exec_countsUp hi hexec
    rwa [CountsUp, setQueue_stats] at hup

theorem serveHost_countsUp {s t : State} (h : serveHost s = .next t) : CountsUp s t := by
  cases hop : s.host with
  | idle => exact serveCommand_countsUp ((serveHost_of_idle hop).symm.trans h)
  | polling => exact resumePoll_countsUp ((serveHost_of_polling hop).symm.trans h)
  | sending left => exact resumeSend_countsUp ((serveHost_of_sending hop).symm.trans h)

theorem serveSlot_countsUp {slot : Slot} {s t : State} (hslot : slot ≠ .reset) (h : serveSlot slot s = .next t) :
    CountsUp s t := by
  cases slot with
  | reset => exact absurd rfl hslot
  | rxin => exact serveCommand_countsUp (p := .rxin) h
  | txout => exact serveCommand_countsUp (p := .txout) h
  | host limit => exact serveHost_countsUp h

/-- Settles O57: a step serves the next turn, and every turn but RESET counts upwards. -/
theorem countersNeverDecrease : Obligations.CountersNeverDecrease := by
  intro s t h hreset
  cases hsched : s.sched with
  | nil =>
    rw [step, serveNext, hsched] at h
    cases h
    exact CountsUp.refl s
  | cons slot turns =>
    rw [step_of_sched hsched] at h
    have hslot : slot ≠ .reset := by rintro rfl; exact hreset turns hsched
    exact serveSlot_countsUp (s := takeTurn slot turns s) hslot h

end Sys2Proof.Machine
end

section
/-! SUPPORT. No fault (R137, R200): an answer is a next state or a refusal, and from a state that meets the invariant
every instruction and every step answers. -/

namespace Sys2Proof.Machine

theorem Answers.notFault {o : Host.Outcome State Fault Refusal} (h : Answers o) : notFault o = true := by
  rcases h with ⟨t, rfl, -⟩ | ⟨r, rfl⟩
  · rfl
  · rfl

/-- Settles O54: under the invariant every load and store of an instruction or a step lies inside its array, so it
answers. -/
theorem nothingFaults : Obligations.NothingFaults :=
  ⟨fun i _ hs => (exec_answers hs i).notFault, fun _ hs => (step_answers hs).notFault⟩

end Sys2Proof.Machine
end

section
/-! SUPPORT. The RESET signal (R230, R231, R233): the state it leaves, which meets the invariant whatever the registers
held, and what the operations answer in it. -/

namespace Sys2Proof.Machine

/-! ### The state after RESET -/

/-- The state that `RESET` leaves: the registers of R230 at their reset values; the storage bytes and what the agents
have issued and been given are those of `s` (log 10). -/
def State.afterReset (s : State) : State :=
  { s with
    rx := Ring.reset s.rx.mem
    tx := Ring.reset s.tx.mem
    dec := Decoder.reset s.dec.buf
    stats := { bytesDropped := 0, checksumErrors := 0 }
    host := .idle }

/-- Settles O49: both buffers are initialised (R101), and the other registers are set to constants. -/
theorem resetFromAnyState : Obligations.ResetFromAnyState := fun _ => rfl

theorem exec_reset (s : State) : exec .reset s = .next s.afterReset := resetFromAnyState s

/-- The invariant after `RESET` needs nothing of the registers: only a legal block, and storage in form. -/
theorem afterReset_inv {s : State} (hc : s.cfg.Legal) (hr : StorageInv s.cfg.nRx s.rx.mem)
    (ht : StorageInv s.cfg.nTx s.tx.mem) (hb : StorageInv s.cfg.maxPayload s.dec.buf) : s.afterReset.Inv where
  legal := hc
  rx := ringInv_reset hc.1 hr
  tx := ringInv_reset hc.2.1 ht
  dec := decoderInv_reset hb
  dropped_le := Nat.zero_le _
  errors_le := Nat.zero_le _

/-! ### The first answers -/

theorem execRxCount_afterReset (s : State) :
    exec .rxCount s.afterReset = .next (present .rxin (.count 0) s.afterReset) := exec_rxCount _

/-- The count is presented on TXOUT in a TXOUT turn (R181). -/
theorem execTxCount_afterReset (s : State) :
    exec .txCount { s.afterReset with turn := .txout } =
      .next (present .txout (.count 0) { s.afterReset with turn := .txout }) := exec_txCount _

/-- An uninterrupted `POLL` has a step to take, and finds `rx` empty. -/
theorem execPoll_afterReset {s : State} (hturn : turnLimit s.turn = none) :
    exec .poll s.afterReset = .next (present .host (.frame none) s.afterReset) :=
  pollOnEmptyChangesNothing s.afterReset rfl (by simp [State.afterReset, hturn])

theorem execTxPop_afterReset (s : State) :
    exec .txPop s.afterReset = .next (present .txout (.byte none) s.afterReset) :=
  execTxPop_of_getByte (getByte_empty rfl)

/-- Settles O50: the registers are reset and the storage is in form, and each operation answers from the empty buffers
and the cleared counters. -/
theorem resetEstablishesInvariant : Obligations.ResetEstablishesInvariant := by
  intro s hc hr ht hb hturn
  exact ⟨s.afterReset, _, _, _, _, _, exec_reset s, afterReset_inv hc hr ht hb,
    statsIsAPureSnapshot s.afterReset, rfl,
    execRxCount_afterReset s, rfl,
    execTxCount_afterReset s, rfl,
    execPoll_afterReset hturn, rfl,
    execTxPop_afterReset s, rfl⟩

end Sys2Proof.Machine
end
